-- ==== Sys2Proof/Config.lean ====
section
/-!
DEFINITION. The parameters of the hardware (`00_scope.md` rule R6), as constants.

The spec leaves no value free: "No entry is treated as `any value`: this machine has no behaviour that
yields an arbitrary value" (`93_implementation_defined.md` section 1). So this file holds no opaque constant.
-/

namespace Sys2Proof.Config

/-- R6, `W`: the width in bits of every memory cell, input, output, ALU operand and of IP.
DESIGN CHOICE, log entry 1: the spec's value 64, fixed (decision D1 lets a model take `W` as an argument). -/
abbrev wordBits : Nat := 64

/-- R6, `WMIN = -2^(W-1)`: the least word. -/
abbrev wMin : Int := -9223372036854775808

/-- R6, `WMAX = 2^(W-1) - 1`: the greatest word. -/
abbrev wMax : Int := 9223372036854775807

/-- R6, the bound `MEM_LEN <= WMAX - 3` on the length of an image. -/
abbrev maxMemLen : Nat := 9223372036854775804

/-- R6, the greatest length of an instruction, in words. -/
abbrev maxInstrWords : Nat := 4

/-- R6, the conventional value of `START_IP` (decision D14). -/
abbrev conventionalStartIp : Nat := 0

end Sys2Proof.Config
end

