-- ==== Sys2Proof/Word.lean ====
section
/-!
DEFINITION. The word (`00_scope.md` rule R7): a signed integer of `W = 64` bits in two's complement, the unit of
memory, of I/O, of arithmetic and of IP. Every rule reads a word as the integer `Word.toInt`.
-/

namespace Sys2Proof

/-- R7: a word, held in `Config.wordBits = 64` bits. Its value is `BitVec.toInt`. -/
abbrev Word := BitVec 64

/-- R10: the word whose value is `v`; used only on integers that fit. -/
abbrev Word.ofInt (v : Int) : Word := BitVec.ofInt 64 v

end Sys2Proof
end

