-- ==== Sys2Proof/Machine/State.lean ====
section
/-!
DEFINITION. The machine's state as plain data: exactly the six items of `10_state.md` rule R20 (`MEM` with its length,
`IP`, `STATE`, `FAULT`, `IN`, `OUT`), its value after reset, and the reasons a step can stop.
-/

namespace Sys2Proof.Machine

/-- R24, `STATE`: the Execution Engine's state. -/
inductive EngineState where
  | running
  | halted
  | faulted
  deriving DecidableEq, Repr

/-- R151: the six fault reasons of the machine. -/
inductive FaultReason where
  /-- R152: an address outside `[0, MEM_LEN)`, in FETCH or OPERANDS. -/
  | outOfBounds
  /-- R153: the instruction word selects no instruction, in DECODE. -/
  | unsupportedOpcode
  /-- R154: mode digit 1 on a write parameter, in MODECHECK. -/
  | invalidWriteMode
  /-- R155: opcode 3 with an empty input queue, in EXECUTE. -/
  | inputExhausted
  /-- R156: mode digit 2 to 9 on a demanded parameter, in MODECHECK. -/
  | unsupportedMode
  /-- R157: a sum or product that does not fit in a word, in EXECUTE. -/
  | overflow
  deriving DecidableEq, Repr

/-- R21, `MEM`: `len` words at the addresses `0 .. len - 1`. The bound `MEM_LEN <= WMAX - 3` (R6) is in the type.

`cells` lists the words that are not 0, by strictly rising address; an address below `len` that is not listed holds the
word 0. This is a way of writing the array down in which equal memories are equal data (log entry 3), not a claim about
unwritten memory: the launch gives every cell a value (R27). -/
structure Memory where
  len : Fin (Config.maxMemLen + 1)
  cells : List (Nat × Word)
  deriving DecidableEq, Repr

/-- R20: the complete architectural state. -/
structure State where
  /-- `MEM` and `MEM_LEN` (R21). -/
  mem : Memory
  /-- `IP`, the address of the next instruction (R22). -/
  ip : Word
  /-- `STATE` (R24). -/
  engine : EngineState
  /-- `FAULT` (R25); `none` is the spec's `None`. -/
  faultReg : Option FaultReason
  /-- `IN`, the input queue, its head first (R31). -/
  inQ : List Word
  /-- `OUT`, the output sequence, the first emitted first (R31). -/
  outQ : List Word
  deriving DecidableEq, Repr

/-- Reasons for which a step would have no next state. There is none, so the type is empty: every fault of this
hardware is a STATE the machine enters (R80, R160: `STATE <- Faulted`), reached by a next state, and not a stop of the
model. Nobody raises one (safe; log entry 4). -/
inductive Fault where
  deriving DecidableEq, Repr

/-- Reasons for which the model would give no meaning. -/
inductive Refusal where
  /-- An instruction of the opcode table without a meaning. Raised by nobody: every row has its meaning (safe). -/
  | notModelled (mnemonic : String)
  deriving DecidableEq, Repr

/-- R34: the state after a launch with the conventional start address 0, of an image with no words and an empty input
list. `STATE`, `FAULT` and `OUT` are the spec's launch values; the image, `START_IP` and `INPUTS` are launch arguments,
for which reset takes the empty ones (DESIGN CHOICE, log entry 2). `Machine/Launch.lean` has the launch itself. -/
def State.reset : State :=
  { mem := { len := 0, cells := [] },
    ip := 0,
    engine := .running,
    faultReg := none,
    inQ := [],
    outQ := [] }

end Sys2Proof.Machine
end

