-- ==== Sys2Proof/Machine/Ops.lean ====
section
/-!
DEFINITION. The named operations over the state: the memory primitives (R41, R42), the IP sequencer (R90, R91), the I/O
Channel (R112), halting, taking a fault (R160) and the end of a cycle (R89). There is no return from a fault (R161).
-/

namespace Sys2Proof.Machine

/-! ## Memory -/

/-- The word that an unlisted address below `MEM_LEN` holds (log entry 3). -/
def unlistedWord : Word := 0

/-- The word listed for address `a`, or `unlistedWord`. -/
def lookupCell : List (Nat × Word) → Nat → Word
  | [], _ => unlistedWord
  | (k, v) :: rest, a => if k = a then v else lookupCell rest a

/-- The cells after `v` is put at address `a`, in canonical form: putting `unlistedWord` removes the entry. -/
def putCell : List (Nat × Word) → Nat → Word → List (Nat × Word)
  | [], a, v => if v = unlistedWord then [] else [(a, v)]
  | (k, w) :: rest, a, v =>
    if a < k then (if v = unlistedWord then (k, w) :: rest else (a, v) :: (k, w) :: rest)
    else if a = k then (if v = unlistedWord then rest else (a, v) :: rest)
    else (k, w) :: putCell rest a v

/-- The canonical form of a cell list, from address `lo` on and below `len`: addresses strictly rising and below `len`,
and no entry equal to what an unlisted address reads as. -/
def canonicalFrom : Nat → Nat → List (Nat × Word) → Bool
  | _, _, [] => true
  | lo, len, (k, v) :: rest =>
    decide (lo ≤ k) && decide (k < len) && decide (v ≠ unlistedWord) && canonicalFrom (k + 1) len rest

/-- The canonical form of a memory. -/
def Memory.wf (m : Memory) : Bool := canonicalFrom 0 m.len.val m.cells

/-- R40: the valid addresses are the integers `a` with `0 <= a < MEM_LEN`. -/
abbrev Memory.valid (m : Memory) (a : Int) : Prop := 0 ≤ a ∧ a < (m.len.val : Int)

/-- `MEM[a]` for a valid address `a`, `none` where there is no cell (R40). -/
def Memory.word? (m : Memory) (a : Int) : Option Word :=
  if m.valid a then some (lookupCell m.cells a.toNat) else none

/-- `MEM[a] <- v` at an address whose bound check has been made (R42, R86). Only COMMIT calls it. -/
def Memory.set (m : Memory) (a : Nat) (v : Word) : Memory := { m with cells := putCell m.cells a v }

/-- What the phases of a cycle answer: a value, or the fault raised (R13). -/
abbrev Cycle (α : Type) := Except FaultReason α

/-- R41, `MemRead(a, 1)`. -/
def memRead (s : State) (a : Int) : Cycle Word :=
  match s.mem.word? a with
  | some v => .ok v
  | none => .error .outOfBounds

/-- R42, the bound check of `MemWrite(a, 1, v)`, made ahead of the write (R44): the address as a cell's key. -/
def memWriteCheck (s : State) (a : Int) : Cycle Nat :=
  if s.mem.valid a then .ok a.toNat else .error .outOfBounds

/-- R42, R89: the committed write of a cycle, at an address that `memWriteCheck` has answered. -/
def State.store (s : State) (a : Nat) (v : Word) : State := { s with mem := s.mem.set a v }

/-! ## The IP sequencer -/

/-- R90: sequential advance by the length of the instruction, from the IP of the start of the cycle. -/
def State.advance (s : State) (n : Nat) : State := { s with ip := s.ip + BitVec.ofNat 64 n }

/-- R91: a taken jump assigns the target, any word at all, with no check. -/
def State.jump (s : State) (target : Word) : State := { s with ip := target }

/-! ## The I/O Channel -/

/-- R112, R155: `next_input()`, the head of `IN` and the state without it, or `InputExhausted`. -/
def nextInput (s : State) : Cycle (Word × State) :=
  match s.inQ with
  | [] => .error .inputExhausted
  | x :: rest => .ok (x, { s with inQ := rest })

/-- R112: `OUT.append(v)`; always succeeds. -/
def State.emit (s : State) (v : Word) : State := { s with outQ := s.outQ ++ [v] }

/-! ## Leaving `Running` -/

/-- R140: `STATE <- Halted`; nothing else changes. -/
def State.stopHalted (s : State) : State := { s with engine := .halted }

/-- R160, fault entry: `STATE <- Faulted`, `FAULT <- r`, every other item as at the start of the cycle. No handler, no
saved IP, no recorded address (R158). -/
def State.takeFault (s : State) (r : FaultReason) : State := { s with engine := .faulted, faultReg := some r }

/-- R89: the end of a cycle that began in `s`: all its updates together, or, if a phase raised a fault, none of them and
the fault entry. -/
def endCycle (s : State) (c : Cycle State) : Host.Outcome State Fault Refusal :=
  match c with
  | .ok t => .next t
  | .error r => .next (s.takeFault r)

/-- R32: no cycle runs in a terminal state, and no item of the state changes (log entry 4). -/
def holdTerminal (s : State) : Host.Outcome State Fault Refusal := .next s

end Sys2Proof.Machine
end

