-- ==== Sys2Proof/Machine/Flags.lean ====
section
/-!
DEFINITION. The machine has no flags, condition codes or predicate registers (R28). What stands in their place is here:
the overflow test (R10, R102), the truth value that a comparison writes (R132), the zero test of the jumps (R124), and
the codes of the two status registers `STATE` and `FAULT` (R24, R25).
-/

namespace Sys2Proof.Machine

/-- R10: `fits(v)`. -/
def fits (v : Int) : Bool := decide (Config.wMin ≤ v) && decide (v ≤ Config.wMax)

/-- R102: the exact result if it fits in a word, `Overflow` otherwise; no wrap-around, no saturation. -/
def exactOrOverflow (r : Int) : Cycle Word :=
  if fits r then .ok (Word.ofInt r) else .error .overflow

/-- R132: the word 1 when the relation holds, the word 0 when it does not. -/
def truthWord (b : Bool) : Word := if b then 1 else 0

/-- R124: the test of a whole word against zero. -/
def isZero (a : Word) : Bool := decide (a.toInt = 0)

/-- R24: the code of `STATE` (log entry 10: no instruction reads it). -/
def EngineState.code : EngineState → BitVec 2
  | .running => 0
  | .halted => 1
  | .faulted => 2

/-- R25, R151: the code of `FAULT`. -/
def faultCode : Option FaultReason → BitVec 3
  | none => 0
  | some .outOfBounds => 1
  | some .unsupportedOpcode => 2
  | some .invalidWriteMode => 3
  | some .inputExhausted => 4
  | some .unsupportedMode => 5
  | some .overflow => 6

end Sys2Proof.Machine
end

