-- ==== Sys2Proof/Machine/Alu.lean ====
section
/-!
DEFINITION. The integer ALU: add and multiply (R102), compare (R132), on words read as signed integers.
-/

namespace Sys2Proof.Machine

/-- R100, R102: the exact sum, or `Overflow`. -/
def aluAdd (a b : Word) : Cycle Word := exactOrOverflow (a.toInt + b.toInt)

/-- R101, R102: the exact product, or `Overflow`. -/
def aluMul (a b : Word) : Cycle Word := exactOrOverflow (a.toInt * b.toInt)

/-- R130, R132: the order of the integers. -/
def aluLt (a b : Word) : Word := truthWord (decide (a.toInt < b.toInt))

/-- R131, R132: equality of the integers. -/
def aluEq (a b : Word) : Word := truthWord (decide (a.toInt = b.toInt))

end Sys2Proof.Machine
end

