-- ==== Sys2Proof/Syntax.lean ====
section
/-!
DEFINITION. The decoded instruction: one constructor per row of `spec/opcode_table.json` (R67), carrying the mode of
each DEMANDED parameter and nothing else. The digits an opcode does not demand are dropped by the decoder (R70); the
raw parameter words are not part of the decoded instruction (R62: the decoder "reads no other memory word"), they are
fetched by the Operand Resolver (R85, R86).
-/

namespace Sys2Proof

/-- R64: the mode digit of a parameter. `reserved k` is the digit `k + 2`: the digits 2 to 9, which the spec
reserves and answers with a fault. -/
inductive Mode where
  /-- digit 0: the parameter is an address. -/
  | position
  /-- digit 1: the parameter is the value itself. -/
  | immediate
  /-- digits 2 to 9 (digit `k + 2`). -/
  | reserved (k : Fin 8)
  deriving DecidableEq, Repr

/-- R65: whether a parameter supplies a value (`r`) or the address to write (`w`). -/
inductive ParamKind where
  | read
  | write
  deriving DecidableEq, Repr

/-- R67: the nine instructions, under the mnemonics of the opcode table; the argument names are its operand names. -/
inductive Instr where
  /-- opcode 1, R100: `dst := a + b`. -/
  | add (a b dst : Mode)
  /-- opcode 2, R101: `dst := a * b`. -/
  | mul (a b dst : Mode)
  /-- opcode 3, R110: `dst := next_input()`. -/
  | input (dst : Mode)
  /-- opcode 4, R111: `emit_output(a)`. -/
  | output (a : Mode)
  /-- opcode 5, R120: if `a != 0`, `IP := target`. -/
  | jnz (a target : Mode)
  /-- opcode 6, R121: if `a == 0`, `IP := target`. -/
  | jz (a target : Mode)
  /-- opcode 7, R130: `dst := (a < b) ? 1 : 0`. -/
  | lt (a b dst : Mode)
  /-- opcode 8, R131: `dst := (a == b) ? 1 : 0`. -/
  | eq (a b dst : Mode)
  /-- opcode 99, R140: `STATE := Halted`. -/
  | halt
  deriving DecidableEq, Repr

end Sys2Proof
end

