-- ==== Sys2Proof/Machine/Operands.lean ====
section
/-!
DEFINITION. Phases 3 and 4 of a cycle (R81): the mode check (R71, R84) and the Operand Resolver (R85 to R87), with one
definition per format of R65 that runs both on all the demanded parameters, in order.
-/

namespace Sys2Proof.Machine

/-- R71: the check of one demanded parameter's mode. -/
def checkMode (k : ParamKind) (m : Mode) : Cycle Unit :=
  match m with
  | .reserved _ => .error .unsupportedMode
  | .immediate =>
    match k with
    | .write => .error .invalidWriteMode
    | .read => .ok ()
  | .position => .ok ()

/-- R71, `ModeCheck`: the demanded parameters in order 1, 2, 3; the first illegal one faults. -/
def modeCheck : List (ParamKind × Mode) → Cycle Unit
  | [] => .ok ()
  | (k, m) :: rest => do
    checkMode k m
    modeCheck rest

/-- R14: the raw parameter word `Pi`, at the address `IP + i`. -/
def rawParam (s : State) (i : Nat) : Cycle Word := memRead s (s.ip.toInt + i)

/-- R85, `RD(i)`. A reserved mode never comes here (R84 has faulted); it would report the same fault (log entry 7). -/
def readParam (s : State) (i : Nat) (m : Mode) : Cycle Word := do
  let p ← rawParam s i
  match m with
  | .immediate => .ok p
  | .position => memRead s p.toInt
  | .reserved _ => .error .unsupportedMode

/-- R86, `WA(i)`: the address that COMMIT will write. -/
def writeAddr (s : State) (i : Nat) : Cycle Nat := do
  let p ← rawParam s i
  memWriteCheck s p.toInt

/-- Format `R2W` (opcodes 1, 2, 7, 8): `a`, `b` and the address `dst`. -/
def operandsR2W (m1 m2 m3 : Mode) (s : State) : Cycle (Word × Word × Nat) := do
  modeCheck [(.read, m1), (.read, m2), (.write, m3)]
  let a ← readParam s 1 m1
  let b ← readParam s 2 m2
  let dst ← writeAddr s 3
  return (a, b, dst)

/-- Format `R2` (opcodes 5, 6): `a` and `target`, both resolved whether or not the jump is taken (R87). -/
def operandsR2 (m1 m2 : Mode) (s : State) : Cycle (Word × Word) := do
  modeCheck [(.read, m1), (.read, m2)]
  let a ← readParam s 1 m1
  let target ← readParam s 2 m2
  return (a, target)

/-- Format `R1` (opcode 4): `a`. -/
def operandsR1 (m1 : Mode) (s : State) : Cycle Word := do
  modeCheck [(.read, m1)]
  readParam s 1 m1

/-- Format `W1` (opcode 3): the address `dst`. -/
def operandsW1 (m1 : Mode) (s : State) : Cycle Nat := do
  modeCheck [(.write, m1)]
  writeAddr s 1

end Sys2Proof.Machine
end

