-- ==== Sys2Proof/Machine/Arithmetic.lean ====
section
/-!
DEFINITION. The arithmetic instructions `add` and `mul` (`41_arithmetic.md`).
-/

namespace Sys2Proof.Machine

/-- R100, `add a, b, dst`. -/
def execAdd (m1 m2 m3 : Mode) (s : State) : Host.Outcome State Fault Refusal :=
  endCycle s do
    let (a, b, dst) ← operandsR2W m1 m2 m3 s
    let r ← aluAdd a b
    return (s.store dst r).advance 4

/-- R101, `mul a, b, dst`. -/
def execMul (m1 m2 m3 : Mode) (s : State) : Host.Outcome State Fault Refusal :=
  endCycle s do
    let (a, b, dst) ← operandsR2W m1 m2 m3 s
    let r ← aluMul a b
    return (s.store dst r).advance 4

end Sys2Proof.Machine
end

