-- ==== Sys2Proof/Machine/Compare.lean ====
section
/-!
DEFINITION. The comparison instructions `lt` and `eq` (`44_compare.md`).
-/

namespace Sys2Proof.Machine

/-- R130, `lt a, b, dst`. -/
def execLt (m1 m2 m3 : Mode) (s : State) : Host.Outcome State Fault Refusal :=
  endCycle s do
    let (a, b, dst) ← operandsR2W m1 m2 m3 s
    return (s.store dst (aluLt a b)).advance 4

/-- R131, `eq a, b, dst`. -/
def execEq (m1 m2 m3 : Mode) (s : State) : Host.Outcome State Fault Refusal :=
  endCycle s do
    let (a, b, dst) ← operandsR2W m1 m2 m3 s
    return (s.store dst (aluEq a b)).advance 4

end Sys2Proof.Machine
end

