-- ==== Sys2Proof/Machine/Halt.lean ====
section
/-!
DEFINITION. The instruction `halt` (`45_halt_and_illegal.md`).
-/

namespace Sys2Proof.Machine

/-- R140, `halt`: demands no parameter, keeps IP, leaves `FAULT` as it is. -/
def execHalt (s : State) : Host.Outcome State Fault Refusal := endCycle s (.ok s.stopHalted)

end Sys2Proof.Machine
end

