-- ==== Sys2Proof/Machine/InputOutput.lean ====
section
/-!
DEFINITION. The input and output instructions (`42_io.md`).
-/

namespace Sys2Proof.Machine

/-- R110, `input dst`: the destination is resolved before the queue is looked at, so a fault consumes no input. -/
def execInput (m1 : Mode) (s : State) : Host.Outcome State Fault Refusal :=
  endCycle s do
    let dst ← operandsW1 m1 s
    let (x, t) ← nextInput s
    return (t.store dst x).advance 2

/-- R111, `output a`. -/
def execOutput (m1 : Mode) (s : State) : Host.Outcome State Fault Refusal :=
  endCycle s do
    let a ← operandsR1 m1 s
    return (s.emit a).advance 2

end Sys2Proof.Machine
end

