-- ==== Sys2Proof/Machine/Jumps.lean ====
section
/-!
DEFINITION. The conditional jumps `jnz` and `jz` (`43_jumps.md`). A target outside memory is no fault of the jump: the
next FETCH raises it (R91).
-/

namespace Sys2Proof.Machine

/-- R120, `jnz a, target`. -/
def execJnz (m1 m2 : Mode) (s : State) : Host.Outcome State Fault Refusal :=
  endCycle s do
    let (a, target) ← operandsR2 m1 m2 s
    return if isZero a then s.advance 3 else s.jump target

/-- R121, `jz a, target`. -/
def execJz (m1 m2 : Mode) (s : State) : Host.Outcome State Fault Refusal :=
  endCycle s do
    let (a, target) ← operandsR2 m1 m2 s
    return if isZero a then s.jump target else s.advance 3

end Sys2Proof.Machine
end

