-- ==== Sys2Proof/Machine/Dispatch.lean ====
section
/-!
DEFINITION. Phases 3 to 6 of a cycle (R81), by instruction: one arm per row of the opcode table.
-/

namespace Sys2Proof.Machine

def exec (i : Instr) (s : State) : Host.Outcome State Fault Refusal :=
  match i with
  | .add m1 m2 m3 => Sys2Proof.Machine.execAdd m1 m2 m3 s
  | .mul m1 m2 m3 => Sys2Proof.Machine.execMul m1 m2 m3 s
  | .input m1 => Sys2Proof.Machine.execInput m1 s
  | .output m1 => Sys2Proof.Machine.execOutput m1 s
  | .jnz m1 m2 => Sys2Proof.Machine.execJnz m1 m2 s
  | .jz m1 m2 => Sys2Proof.Machine.execJz m1 m2 s
  | .lt m1 m2 m3 => Sys2Proof.Machine.execLt m1 m2 m3 s
  | .eq m1 m2 m3 => Sys2Proof.Machine.execEq m1 m2 m3 s
  | .halt => Sys2Proof.Machine.execHalt s

end Sys2Proof.Machine
end

