-- ==== Sys2Proof/WellFormed.lean ====
section
/-!
DEFINITION. Which decoded instructions are legal: the mode condition of `30_encoding.md` rule R72 on the demanded
parameters. An ill-formed instruction is not stuck: it raises the fault of R64 (`Machine/Operands.lean`, `modeCheck`).
-/

namespace Sys2Proof

/-- R64: a read parameter takes position and immediate mode. -/
def Mode.legalRead : Mode → Bool
  | .position => true
  | .immediate => true
  | .reserved _ => false

/-- R64: "A write-target parameter must always resolve in position mode". -/
def Mode.legalWrite : Mode → Bool
  | .position => true
  | .immediate => false
  | .reserved _ => false

/-- R72: the mode condition of a legal instruction word, opcode by opcode. -/
def Instr.wf : Instr → Bool
  | .add a b dst => a.legalRead && b.legalRead && dst.legalWrite
  | .mul a b dst => a.legalRead && b.legalRead && dst.legalWrite
  | .input dst => dst.legalWrite
  | .output a => a.legalRead
  | .jnz a target => a.legalRead && target.legalRead
  | .jz a target => a.legalRead && target.legalRead
  | .lt a b dst => a.legalRead && b.legalRead && dst.legalWrite
  | .eq a b dst => a.legalRead && b.legalRead && dst.legalWrite
  | .halt => true

end Sys2Proof
end

