-- ==== Sys2Proof/Decode.lean ====
section
/-!
DEFINITION. The Instruction Decoder (R61 to R63, R67, R69, R70), total on every word and rejecting by name; after it the
encoder (R73), the words of an instruction with its parameters and the assembler's emission (R76), and the host's view of
the decoder.
-/

namespace Sys2Proof

/-! ## Decimal fields -/

/-- R11: `digit(w, k)`, the decimal digit of `w` of weight `10^k`. -/
def digit (w k : Nat) : Nat := w / 10 ^ k % 10

/-- R64: the mode that a decimal digit selects. -/
def Mode.ofDigit : Nat → Mode
  | 0 => .position
  | 1 => .immediate
  | d + 2 => .reserved (Fin.ofNat 8 d)

/-- R64: the decimal digit of a mode. -/
def Mode.toDigit : Mode → Nat
  | .position => 0
  | .immediate => 1
  | .reserved k => k.val + 2

/-! ## The decoder -/

/-- R62: the decoder's result, `(opcode, m1, m2, m3)`: always three mode digits, "even if only one or two are used". -/
structure Fields where
  opcode : Nat
  m1 : Mode
  m2 : Mode
  m3 : Mode
  deriving DecidableEq, Repr

/-- Why a word selects no instruction (R141). -/
inductive DecodeReject where
  /-- R63: the word is negative. -/
  | negative
  /-- R69: the two low digits are 00 or 09 to 98. -/
  | unsupportedOpcode (opcode : Nat)
  deriving DecidableEq, Repr

/-- R62, `Decode(w)`: a function of the instruction word alone. Digits of weight `10^5` and above are not examined (R70 b). -/
def decodeFields (w : Word) : Except DecodeReject Fields :=
  if w.toInt < 0 then .error .negative
  else
    let n := w.toInt.toNat
    .ok { opcode := n % 100,
          m1 := Mode.ofDigit (digit n 2), m2 := Mode.ofDigit (digit n 3), m3 := Mode.ofDigit (digit n 4) }

/-- R67, R83: the dispatch table from the opcode to the instruction. The digits it does not demand are dropped (R70 a). -/
def Fields.toInstr (f : Fields) : Except DecodeReject Instr :=
  match f.opcode with
  | 1 => .ok (.add f.m1 f.m2 f.m3)
  | 2 => .ok (.mul f.m1 f.m2 f.m3)
  | 3 => .ok (.input f.m1)
  | 4 => .ok (.output f.m1)
  | 5 => .ok (.jnz f.m1 f.m2)
  | 6 => .ok (.jz f.m1 f.m2)
  | 7 => .ok (.lt f.m1 f.m2 f.m3)
  | 8 => .ok (.eq f.m1 f.m2 f.m3)
  | 99 => .ok .halt
  | op => .error (.unsupportedOpcode op)

/-- R81 phase 2: the decoder and the dispatch table together. -/
def decode (w : Word) : Except DecodeReject Instr :=
  match decodeFields w with
  | .ok f => f.toInstr
  | .error e => .error e

/-! ## The encoding tables and the encoder -/

/-- R67: the opcode of an instruction. -/
def Instr.opcode : Instr → Nat
  | .add _ _ _ => 1
  | .mul _ _ _ => 2
  | .input _ => 3
  | .output _ => 4
  | .jnz _ _ => 5
  | .jz _ _ => 6
  | .lt _ _ _ => 7
  | .eq _ _ _ => 8
  | .halt => 99

/-- R65, R83: the demanded parameters in order, each with its kind and its mode. -/
def Instr.params : Instr → List (ParamKind × Mode)
  | .add a b dst => [(.read, a), (.read, b), (.write, dst)]
  | .mul a b dst => [(.read, a), (.read, b), (.write, dst)]
  | .input dst => [(.write, dst)]
  | .output a => [(.read, a)]
  | .jnz a target => [(.read, a), (.read, target)]
  | .jz a target => [(.read, a), (.read, target)]
  | .lt a b dst => [(.read, a), (.read, b), (.write, dst)]
  | .eq a b dst => [(.read, a), (.read, b), (.write, dst)]
  | .halt => []

/-- R60, R65: the length of an instruction in words. -/
def Instr.lengthWords (i : Instr) : Nat := 1 + i.params.length

/-- R73: the value contributed by the demanded mode digits, the first of weight `10^k`. -/
def modeDigits : Nat → List (ParamKind × Mode) → Nat
  | _, [] => 0
  | k, (_, m) :: rest => m.toDigit * 10 ^ k + modeDigits (k + 1) rest

/-- R73: the canonical instruction word, `op + 100*m1 + 1000*m2 + 10000*m3` with the digit of every undemanded
parameter 0. -/
def encode (i : Instr) : Word := BitVec.ofNat 64 (i.opcode + modeDigits 2 i.params)

/-- R60: the words of an instruction in memory, the instruction word and then its raw parameter words. -/
def encodeWords (i : Instr) (raw : List Word) : List Word := encode i :: raw

/-- R76: one line of the spec's assembly notation, already read: an instruction with its raw parameter words (the
operand `[n]` is mode position with word `n`, the operand `#n` mode immediate with word `n`), or `dat n`. -/
inductive Line where
  | instr (i : Instr) (raw : List Word)
  | dat (w : Word)
  deriving DecidableEq, Repr

/-- R76: "The assembler emits the canonical instruction word of rule R73 followed by the raw parameter words." -/
def assemble : List Line → List Word
  | [] => []
  | .instr i raw :: rest => encodeWords i raw ++ assemble rest
  | .dat w :: rest => w :: assemble rest

/-! ## The host's view -/

/-- The instruction the decoder reads from an instruction whose first 64 bits are the low 64 bits of `w`. The decoder
looks at the instruction word only (R62), so the parameter words, from bit 64 on, do not matter. -/
def decodeTableWord (nbits w : Nat) : Option Instr :=
  match decode (BitVec.ofNat 64 (w % 2 ^ nbits)) with
  | .ok i => some i
  | .error _ => none

end Sys2Proof
end

