-- ==== Sys2Proof/Machine/Fetch.lean ====
section
/-!
DEFINITION. Phases 1 and 2 of a cycle (R81): FETCH and DECODE; and the placing of one instruction where the next cycle
fetches it, which the host's checks use.
-/

namespace Sys2Proof.Machine

/-- R153: the fault of a word that selects no instruction. -/
def rejectFault : DecodeReject → FaultReason
  | .negative => .unsupportedOpcode
  | .unsupportedOpcode _ => .unsupportedOpcode

/-- R82, FETCH: the instruction word at the address in IP, through the ordinary read primitive. -/
def fetchWord (s : State) : Cycle Word := memRead s s.ip.toInt

/-- R81 phase 2, DECODE. -/
def decodeWord (w : Word) : Cycle Instr :=
  match decode w with
  | .ok i => .ok i
  | .error e => .error (rejectFault e)

/-- R81 phases 1 and 2; decoded afresh from memory in every cycle (R30, R52). -/
def fetchInstr (s : State) : Cycle Instr := do
  let w ← fetchWord s
  decodeWord w

/-- The address at which `placeInstruction` puts an instruction: IP, if four words from there on fit in a memory, and 0
otherwise. -/
def placeSite (s : State) : Fin (Config.maxMemLen - 3) :=
  if h : 0 ≤ s.ip.toInt ∧ s.ip.toInt.toNat < Config.maxMemLen - 3 then ⟨s.ip.toInt.toNat, h.2⟩ else ⟨0, by decide⟩

/-- The `k`-th word of an instruction whose bits are `w`, bit 0 the least significant bit of the first word. -/
def tableWord (w k : Nat) : Word := BitVec.ofNat 64 (w / 2 ^ (64 * k))

/-- A memory at least `n` words long, its cells as they are. -/
def Memory.growTo (m : Memory) (n : Fin (Config.maxMemLen + 1)) : Memory :=
  if m.len.val < n.val then { m with len := n } else m

/-- The memory with the four words of an instruction at `site`, grown if it ends before them. -/
def Memory.placeWords (m : Memory) (site : Fin (Config.maxMemLen - 3)) (bits : Nat) : Memory :=
  ((((m.growTo ⟨site.val + 4, by have := site.isLt; omega⟩).set site.val (tableWord bits 0)).set
    (site.val + 1) (tableWord bits 1)).set (site.val + 2) (tableWord bits 2)).set (site.val + 3) (tableWord bits 3)

/-- The state `s` with an instruction of bits `w` (those above `nbits` zero, up to the longest instruction, four words)
loaded where the next cycle fetches, and the engine `Running`: it stands for the host's load (log entry 8). -/
def placeInstruction (s : State) (nbits w : Nat) : State :=
  { s with
    mem := s.mem.placeWords (placeSite s) (w % 2 ^ nbits),
    ip := BitVec.ofNat 64 (placeSite s).val,
    engine := .running,
    faultReg := none }

end Sys2Proof.Machine
end

