-- ==== Sys2Proof/Machine/Step.lean ====
section
/-!
DEFINITION. One step of the machine: one cycle, which is one whole instruction (R80, R81), enabled exactly when
`STATE == Running`.
-/

namespace Sys2Proof.Machine

/-- R80, R94: one cycle. A terminal state is absorbing (R32). -/
def step (s : State) : Host.Outcome State Fault Refusal :=
  match s.engine with
  | .running =>
    match fetchInstr s with
    | .ok i => exec i s
    | .error r => endCycle s (.error r)
  | .halted => holdTerminal s
  | .faulted => holdTerminal s

/-- The state with one instruction placed where the next cycle fetches it (log entry 8). -/
def State.withFetchWord (s : State) (nbits w : Nat) : State := placeInstruction s nbits w

end Sys2Proof.Machine
end

