-- ==== Sys2Proof/Machine/Launch.lean ====
section
/-!
DEFINITION. The host's side of the machine (`70_reset_and_hazards.md`): the launch, which is the core's reset and its
only entry point (R180), with its preconditions (R181), and the result of a run that has ended (R184).
-/

namespace Sys2Proof.Machine

/-- The cells of an image whose first word lies at address `k`, in canonical form. -/
def imageCells : Nat → List Word → List (Nat × Word)
  | _, [] => []
  | k, v :: rest => if v = unlistedWord then imageCells (k + 1) rest else (k, v) :: imageCells (k + 1) rest

/-- R34: `MEM[a] = image[a]`, `MEM_LEN` the length of the image; `none` for an image longer than R6 allows. -/
def Memory.ofImage (image : List Word) : Option Memory :=
  if h : image.length < Config.maxMemLen + 1 then some { len := ⟨image.length, h⟩, cells := imageCells 0 image } else none

/-- R180, `Launch(image, START_IP, INPUTS)`: every item of state, in one step. `none` where the host has not met R181 (a)
or (b), of which the spec says nothing (log entry 9). -/
def launch (image : List Word) (startIp : Word) (inputs : List Word) : Option State :=
  if 0 ≤ startIp.toInt then
    match Memory.ofImage image with
    | some m => some { mem := m, ip := startIp, engine := .running, faultReg := none, inQ := inputs, outQ := [] }
    | none => none
  else none

/-- R16: a terminal state of the engine, as the entry contract returns it (R184). -/
inductive TerminalState where
  | halted
  | faulted (r : FaultReason)
  deriving DecidableEq, Repr

/-- R184: what the host gets when a run has ended: `(final_memory, outputs, terminal_state)`. -/
structure RunResult where
  finalMemory : List Word
  outputs : List Word
  terminal : TerminalState
  deriving DecidableEq, Repr

/-- R20, R170: the source's single value `Running | Halted | Faulted(reason)`, where it is terminal. -/
def terminalState (s : State) : Option TerminalState :=
  match s.engine, s.faultReg with
  | .running, _ => none
  | .halted, _ => some .halted
  | .faulted, some r => some (.faulted r)
  | .faulted, none => none

/-- All the words of a memory, address 0 first. -/
def Memory.words (m : Memory) : List Word := (List.range m.len.val).map (lookupCell m.cells)

/-- R184: the result, which exists only when the run has ended (R183). -/
def result (s : State) : Option RunResult :=
  match terminalState s with
  | some t => some { finalMemory := s.mem.words, outputs := s.outQ, terminal := t }
  | none => none

end Sys2Proof.Machine
end

