-- ==== Sys2Proof/Safety.lean ====
section
/-!
DEFINITION. The terms in which claims about runs are made: the invariant of the states a run goes through, reaching a
state, and the end of a run.
-/

namespace Sys2Proof.Machine

/-- The state from which the last cycle of a finished run started, as far as a terminal state tells: the same items,
with `STATE` and `FAULT` as they were before (R89, R140). -/
def State.reentered (s : State) : State := { s with engine := .running, faultReg := none }

/-- What holds of the state after a launch and is kept by every cycle. -/
structure State.Inv (s : State) : Prop where
  /-- The memory is in its canonical form (log entry 3). -/
  memCanonical : s.mem.wf = true
  /-- R20: "`FAULT != None` exactly when `STATE == Faulted`". -/
  faultAgrees : s.faultReg ≠ none ↔ s.engine = .faulted
  /-- R92: "In a `Halted` state IP holds the address of the instruction word whose opcode was 99". -/
  haltedAtHalt : s.engine = .halted → ∃ w, s.mem.word? s.ip.toInt = some w ∧ decode w = .ok .halt
  /-- R89, R92, R158: a `Faulted` state is the state before the faulting instruction but for `STATE` and `FAULT`, so
  the same cycle run again from it raises the same fault. -/
  faultReproduces : s.engine = .faulted → step s.reentered = .next s

/-- A run leads from `s` to `t`. -/
def Reaches (s t : State) : Prop := ∃ k, core.run k s = .next t

/-- R191: the run from `s` ends in `t`, the first state of it with `STATE != Running`. -/
def EndsIn (s t : State) : Prop :=
  t.engine ≠ .running ∧ ∃ k, core.run k s = .next t ∧
    ∀ j, j < k → ∀ u, core.run j s = .next u → u.engine = .running

/-- A cycle of a `Running` state that completes (R80): it does not fault. -/
def Completes (s : State) : Prop := s.engine = .running ∧ ∃ t, step s = .next t ∧ t.engine ≠ .faulted

end Sys2Proof.Machine
end

