-- ==== Sys2Proof/Certificates/Slice0/Obligations.lean ====
section
/-!
DEFINITION. The statements for the provers, `Obligations.<Name>`, and before them the terms they are made in: the words
of the spec's rules written over the state (`Sys2Proof.Rules`) and the pseudocode of rule R94 written out whole
(`Sys2Proof.Pseudocode`). Neither mentions the model's decoder, operand resolver or meanings, but for the address of a
write in `CommitsWrite` and `Commits`, which is the resolver's own `writeAddr`.
-/

/-! ## The rules' own terms -/

namespace Sys2Proof.Rules

open Sys2Proof.Machine

/-- R11, R61: the digit of weight `10^k` of an instruction word. -/
def digitOf (w : Word) (k : Nat) : Int := w.toInt / 10 ^ k % 10

/-- R152: an address that is negative or `>= MEM_LEN`. -/
def outside (s : State) (a : Int) : Bool := decide (a < 0) || decide ((s.mem.len.val : Int) ≤ a)

/-- `MEM[a]`; said only of addresses inside memory. -/
def cell (s : State) (a : Int) : Word := (s.mem.word? a).getD 0

/-- R14: the raw parameter word `Pi`. -/
def raw (s : State) (i : Nat) : Word := cell s (s.ip.toInt + i)

/-- R82: the instruction word. -/
def instrWord (s : State) : Word := cell s s.ip.toInt

/-- R64: the digits 2 to 9. -/
def reservedDigit (m : Int) : Bool := decide (2 ≤ m)

/-- R85: read parameter `i` with mode digit `m` touches an address outside memory. -/
def readOutside (s : State) (i : Nat) (m : Int) : Bool :=
  outside s (s.ip.toInt + i) || (decide (m = 0) && outside s (raw s i).toInt)

/-- R86: write parameter `i` touches an address outside memory. -/
def writeOutside (s : State) (i : Nat) : Bool := outside s (s.ip.toInt + i) || outside s (raw s i).toInt

/-- R85: the value of read parameter `i` with mode digit `m`. -/
def rd (s : State) (i : Nat) (m : Int) : Word := if m = 1 then raw s i else cell s (raw s i).toInt

/-- R86: the address of write parameter `i`. -/
def wa (s : State) (i : Nat) : Nat := (raw s i).toInt.toNat

/-- R89, R159: the cycle's outcome, given its fault conditions in the order they are tested and the state it commits if
none of them holds. -/
def settle (s : State) (tests : List (Bool × FaultReason)) (committed : State) :
    Host.Outcome State Fault Refusal :=
  match tests.find? (·.1) with
  | some (_, r) => .next { s with engine := .faulted, faultReg := some r }
  | none => .next committed

/-- The cycle of `s` is one of the instruction with opcode `op`: IP is outside memory (every instruction's fault list
begins with it), or the word there is `>= 0` and its two low digits are `op` (R67). -/
def fetches (s : State) (op : Int) : Prop :=
  outside s s.ip.toInt = true ∨ (0 ≤ (instrWord s).toInt ∧ (instrWord s).toInt % 100 = op)

/-- R100, R101, R130, R131: the faults of a format `R2W` instruction before EXECUTE, in the order tested. -/
def faultsR2W (s : State) : List (Bool × FaultReason) :=
  let w := instrWord s
  [(outside s s.ip.toInt, .outOfBounds),
   (reservedDigit (digitOf w 2), .unsupportedMode),
   (reservedDigit (digitOf w 3), .unsupportedMode),
   (reservedDigit (digitOf w 4), .unsupportedMode),
   (decide (digitOf w 4 = 1), .invalidWriteMode),
   (readOutside s 1 (digitOf w 2), .outOfBounds),
   (readOutside s 2 (digitOf w 3), .outOfBounds),
   (writeOutside s 3, .outOfBounds)]

/-- R120, R121: the faults of a format `R2` instruction, in the order tested. -/
def faultsR2 (s : State) : List (Bool × FaultReason) :=
  let w := instrWord s
  [(outside s s.ip.toInt, .outOfBounds),
   (reservedDigit (digitOf w 2), .unsupportedMode),
   (reservedDigit (digitOf w 3), .unsupportedMode),
   (readOutside s 1 (digitOf w 2), .outOfBounds),
   (readOutside s 2 (digitOf w 3), .outOfBounds)]

/-- R100: operand `a` of the instruction at IP. -/
def opA (s : State) : Word := rd s 1 (digitOf (instrWord s) 2)

/-- R100: operand `b` (of a jump, `target`) of the instruction at IP. -/
def opB (s : State) : Word := rd s 2 (digitOf (instrWord s) 3)

/-- The state after a format `R2W` instruction has written `r`: `MemWrite(dst, 1, r);  pc <- pc + 4`. -/
def afterWrite (s : State) (r : Int) : State :=
  { s with mem := s.mem.set (wa s 3) (Word.ofInt r), ip := Word.ofInt (s.ip.toInt + 4) }

/-- R73: the mode digit of the demanded parameter with index `k`, 0 if the opcode demands no such parameter. -/
def modeDigitAt (i : Instr) (k : Nat) : Nat :=
  match i.params[k]? with
  | some (_, m) => m.toDigit
  | none => 0

/-- R64: the fault of one demanded parameter's mode, if it is illegal. -/
def modeFault : ParamKind → Mode → Option FaultReason
  | _, .position => none
  | .read, .immediate => none
  | .write, .immediate => some .invalidWriteMode
  | _, .reserved _ => some .unsupportedMode

/-- R85: read parameter `i` in mode `m` has the value `v`. -/
def ReadsAs (s : State) (i : Nat) (m : Mode) (v : Word) : Prop :=
  ∃ p, s.mem.word? (s.ip.toInt + i) = some p ∧
    ((m = .immediate ∧ v = p) ∨ (m = .position ∧ s.mem.word? p.toInt = some v))

/-- R86: write parameter `i` names the address `d` inside memory. -/
def WritesTo (s : State) (i d : Nat) : Prop :=
  d < s.mem.len.val ∧ ∃ p, s.mem.word? (s.ip.toInt + i) = some p ∧ p.toInt = d

/-- R89, R90, R102: `t` is `s` with the one write of a format `R2W` instruction committed, the word of `f a b` at the
address that `writeAddr s 3` answers, and the advance by 4. -/
def CommitsWrite (m1 m2 : Mode) (f : Int → Int → Int) (s t : State) : Prop :=
  ∃ a b d, ReadsAs s 1 m1 a ∧ ReadsAs s 2 m2 b ∧ writeAddr s 3 = .ok d ∧ fits (f a.toInt b.toInt) = true ∧
    t = { s with mem := s.mem.set d (Word.ofInt (f a.toInt b.toInt)), ip := Word.ofInt (s.ip.toInt + 4) }

/-- R89 to R92: `t` is `s` with all the updates of a completed cycle of `i` committed and nothing else changed. -/
def Commits (i : Instr) (s t : State) : Prop :=
  match i with
  | .add m1 m2 _ => CommitsWrite m1 m2 (fun a b => a + b) s t
  | .mul m1 m2 _ => CommitsWrite m1 m2 (fun a b => a * b) s t
  | .input _ => ∃ x d, s.inQ = x :: t.inQ ∧ writeAddr s 1 = .ok d ∧
      t = { s with mem := s.mem.set d x, inQ := t.inQ, ip := Word.ofInt (s.ip.toInt + 2) }
  | .output m1 => ∃ a, ReadsAs s 1 m1 a ∧ t = { s with outQ := s.outQ ++ [a], ip := Word.ofInt (s.ip.toInt + 2) }
  | .jnz m1 m2 => ∃ a target, ReadsAs s 1 m1 a ∧ ReadsAs s 2 m2 target ∧
      t = { s with ip := if a.toInt ≠ 0 then target else Word.ofInt (s.ip.toInt + 3) }
  | .jz m1 m2 => ∃ a target, ReadsAs s 1 m1 a ∧ ReadsAs s 2 m2 target ∧
      t = { s with ip := if a.toInt = 0 then target else Word.ofInt (s.ip.toInt + 3) }
  | .lt m1 m2 _ => CommitsWrite m1 m2 (fun a b => if a < b then 1 else 0) s t
  | .eq m1 m2 _ => CommitsWrite m1 m2 (fun a b => if a = b then 1 else 0) s t
  | .halt => t = { s with engine := .halted }

/-- R31, R45, R112: what a run does to the channel and to the length of memory. -/
def ChannelGrows (s t : State) : Prop :=
  (∃ taken, s.inQ = taken ++ t.inQ) ∧ (∃ emitted, t.outQ = s.outQ ++ emitted) ∧ t.mem.len = s.mem.len

end Sys2Proof.Rules

/-! ## The pseudocode of rule R94 -/

namespace Sys2Proof.Pseudocode

open Sys2Proof.Machine

/-- R83: `n(opcode)`; `none` for an opcode that has no row. -/
def paramCount (opcode : Int) : Option Nat :=
  if opcode = 1 ∨ opcode = 2 ∨ opcode = 7 ∨ opcode = 8 then some 3
  else if opcode = 5 ∨ opcode = 6 then some 2
  else if opcode = 3 ∨ opcode = 4 then some 1
  else if opcode = 99 then some 0
  else none

/-- R83: `kind(opcode, i) == write`. -/
def isWrite (opcode : Int) (i : Nat) : Bool :=
  decide ((opcode = 3 ∧ i = 1) ∨ ((opcode = 1 ∨ opcode = 2 ∨ opcode = 7 ∨ opcode = 8) ∧ i = 3))

/-- R12: `MemRead(a, 1)`, as an integer. -/
def read (s : State) (a : Int) : Except FaultReason Int :=
  match s.mem.word? a with
  | some v => .ok v.toInt
  | none => .error .outOfBounds

/-- Phase 3: `for i in 1 .. n(opcode)`, with `left` parameters to go from the `i`-th on. -/
def modeLoop (opcode : Int) (m : Nat → Int) : (left i : Nat) → Except FaultReason Unit
  | 0, _ => .ok ()
  | left + 1, i =>
    if 2 ≤ m i then .error .unsupportedMode
    else if isWrite opcode i = true ∧ m i = 1 then .error .invalidWriteMode
    else modeLoop opcode m left (i + 1)

/-- Phase 4, one parameter: `v[i]`. -/
def resolve (s : State) (opcode : Int) (m : Nat → Int) (i : Nat) : Except FaultReason Int :=
  match read s (s.ip.toInt + i) with
  | .error r => .error r
  | .ok p =>
    if isWrite opcode i = true then
      if p < 0 ∨ (s.mem.len.val : Int) ≤ p then .error .outOfBounds else .ok p
    else if m i = 1 then .ok p
    else read s p

/-- Phase 4: `for i in 1 .. n(opcode)`; the values so far are `v`. -/
def operandLoop (s : State) (opcode : Int) (m : Nat → Int) :
    (left i : Nat) → (v : Nat → Int) → Except FaultReason (Nat → Int)
  | 0, _, v => .ok v
  | left + 1, i, v =>
    match resolve s opcode m i with
    | .error r => .error r
    | .ok x => operandLoop s opcode m left (i + 1) (fun j => if j = i then x else v j)

/-- `commit { MemWrite(d, 1, r);  pc <- pc + n }`. -/
def commitWrite (s : State) (d r n : Int) : State :=
  { s with mem := s.mem.set d.toNat (Word.ofInt r), ip := Word.ofInt (s.ip.toInt + n) }

/-- Phases 5 and 6: `case opcode of`. -/
def execute (s : State) (opcode : Int) (v : Nat → Int) : Except FaultReason State :=
  if opcode = 1 then
    if fits (v 1 + v 2) then .ok (commitWrite s (v 3) (v 1 + v 2) 4) else .error .overflow
  else if opcode = 2 then
    if fits (v 1 * v 2) then .ok (commitWrite s (v 3) (v 1 * v 2) 4) else .error .overflow
  else if opcode = 3 then
    match s.inQ with
    | [] => .error .inputExhausted
    | x :: rest => .ok { commitWrite s (v 1) x.toInt 2 with inQ := rest }
  else if opcode = 4 then
    .ok { s with outQ := s.outQ ++ [Word.ofInt (v 1)], ip := Word.ofInt (s.ip.toInt + 2) }
  else if opcode = 5 then
    .ok { s with ip := if v 1 ≠ 0 then Word.ofInt (v 2) else Word.ofInt (s.ip.toInt + 3) }
  else if opcode = 6 then
    .ok { s with ip := if v 1 = 0 then Word.ofInt (v 2) else Word.ofInt (s.ip.toInt + 3) }
  else if opcode = 7 then .ok (commitWrite s (v 3) (if v 1 < v 2 then 1 else 0) 4)
  else if opcode = 8 then .ok (commitWrite s (v 3) (if v 1 = v 2 then 1 else 0) 4)
  else .ok { s with engine := .halted }

/-- Phases 1 to 6 of `Cycle()`. -/
def phases (s : State) : Except FaultReason State :=
  match read s s.ip.toInt with
  | .error r => .error r
  | .ok iw =>
    if iw < 0 then .error .unsupportedOpcode
    else
      let opcode := iw % 100
      let m : Nat → Int := fun i => if i = 1 then iw / 100 % 10 else if i = 2 then iw / 1000 % 10 else iw / 10000 % 10
      match paramCount opcode with
      | none => .error .unsupportedOpcode
      | some n =>
        match modeLoop opcode m n 1 with
        | .error r => .error r
        | .ok () =>
          match operandLoop s opcode m n 1 (fun _ => 0) with
          | .error r => .error r
          | .ok v => execute s opcode v

/-- R94, `Cycle()`: `raise` abandons the assignments of the cycle and enters `Faulted` (R13). -/
def cycle (s : State) : State :=
  match phases s with
  | .ok t => t
  | .error r => { s with engine := .faulted, faultReg := some r }

end Sys2Proof.Pseudocode

/-! ## Launch, reset and runs -/

open Sys2Proof Sys2Proof.Machine Sys2Proof.Rules

/-- The model's reset is the launch of an empty image at address 0 with no inputs (log entry 2, the model's choice of
launch arguments). -/
def Obligations.ResetIsTheEmptyLaunch : Prop :=
  launch [] 0 [] = some State.reset ∧ State.reset.engine = .running ∧ State.reset.faultReg = none ∧
    State.reset.outQ = []

/-- The invariant holds at reset. -/
def Obligations.ResetSatisfiesTheInvariant : Prop := State.reset.Inv

/-- R34: the value of every item of state after a launch. -/
def Obligations.LaunchSetsEveryItem : Prop :=
  ∀ (image : List Word) (startIp : Word) (inputs : List Word) (s : State), launch image startIp inputs = some s →
    s.mem.len.val = image.length ∧ (∀ a : Nat, s.mem.word? a = image[a]?) ∧ s.ip = startIp ∧ s.engine = .running ∧
      s.faultReg = none ∧ s.inQ = inputs ∧ s.outQ = []

/-- R181 (a), (b), log entry 9: a launch is described exactly when the host meets its two preconditions. -/
def Obligations.LaunchIsDescribedUnderItsPreconditions : Prop :=
  ∀ (image : List Word) (startIp : Word) (inputs : List Word),
    (∃ s, launch image startIp inputs = some s) ↔ ((image.length : Int) ≤ Config.wMax - 3 ∧ 0 ≤ startIp.toInt)

/-- Every launch gives a state with the invariant. -/
def Obligations.LaunchSatisfiesTheInvariant : Prop :=
  ∀ (image : List Word) (startIp : Word) (inputs : List Word) (s : State), launch image startIp inputs = some s → s.Inv

/-- Every step keeps the invariant: the canonical memory, the agreement of `STATE` and `FAULT` (R20), the halt word
under IP of a `Halted` state (R92) and the reproducible fault of a `Faulted` one (R89, R158). -/
def Obligations.StepKeepsTheInvariant : Prop := ∀ s t : State, s.Inv → step s = .next t → t.Inv

/-- R80, for `STATE == Running`: a cycle always answers a state, and where it leaves `Running` by a fault it says which.
That the step answers a next state in a terminal state too (the same state, after R32), and that it is never a stop of the
model's `Fault`, is the model's choice, log entry 4. -/
def Obligations.StepAlwaysAnswersAState : Prop :=
  ∀ s : State, ∃ t, step s = .next t ∧ (s.engine = .running → t.engine = .faulted → t.faultReg ≠ none)

/-- R32: "`Halted` and `Faulted` are absorbing." -/
def Obligations.TerminalStatesAreAbsorbing : Prop :=
  ∀ (s : State) (k : Nat), s.engine ≠ .running → core.run k s = .next s

/-- R191, R32, R92: the end of a run is one state. No other state with `STATE != Running` is ever reached, the run from
any `Running` state on the way ends in it too, and the last cycle either fetched a `halt` word and set `STATE` only, or
faulted and set `STATE` and `FAULT` only. -/
def Obligations.EndOfARunIsUnique : Prop :=
  ∀ s t : State, s.engine = .running → EndsIn s t →
    (∀ u, Reaches s u → u.engine ≠ .running → u = t) ∧
    (∀ u, Reaches s u → u.engine = .running → EndsIn u t) ∧
    ∃ u, Reaches s u ∧ u.engine = .running ∧ step u = .next t ∧
      ((t = { u with engine := .halted } ∧
          ∃ w, u.mem.word? u.ip.toInt = some w ∧ 0 ≤ w.toInt ∧ w.toInt % 100 = 99) ∨
        ∃ r, t = { u with engine := .faulted, faultReg := some r })

/-- R31, R45, R115 over whole runs: inputs are consumed from the head, outputs only appended, `MEM_LEN` fixed. -/
def Obligations.RunsConsumeInputAndAppendOutput : Prop := ∀ s t : State, Reaches s t → ChannelGrows s t

/-- R184: what the host gets when a run has ended, and that it gets nothing before. -/
def Obligations.ResultIsTheFinalState : Prop :=
  ∀ s : State, s.Inv →
    (s.engine = .running → result s = none) ∧
    (s.engine ≠ .running → ∃ r, result s = some r ∧ r.finalMemory.length = s.mem.len.val ∧
      (∀ a : Nat, r.finalMemory[a]? = s.mem.word? a) ∧ r.outputs = s.outQ ∧
      (s.engine = .halted → r.terminal = .halted) ∧
      (∀ q, s.faultReg = some q → r.terminal = .faulted q))

/-! ## Fetch, decode and step -/

/-- A step runs the decoded instruction: FETCH reads the word at IP, DECODE selects `i`, and the rest of the cycle is
`exec i` on the unchanged state. -/
def Obligations.StepRunsTheDecodedInstruction : Prop :=
  ∀ (s : State) (w : Word) (i : Instr), s.engine = .running → s.mem.word? s.ip.toInt = some w → decode w = .ok i →
    step s = exec i s

/-- R82: a cycle whose IP is outside memory faults with `OutOfBounds`. -/
def Obligations.FetchOutsideMemoryFaults : Prop :=
  ∀ s : State, s.engine = .running → outside s s.ip.toInt = true → step s = .next (s.takeFault .outOfBounds)

/-- R141: the words that select no instruction, and what the cycle that fetches one does. -/
def Obligations.WordsThatSelectNoInstructionFault : Prop :=
  ∀ (s : State) (w : Word), s.engine = .running → s.mem.word? s.ip.toInt = some w →
    (w.toInt < 0 ∨ w.toInt % 100 = 0 ∨ (9 ≤ w.toInt % 100 ∧ w.toInt % 100 ≤ 98)) →
    step s = .next (s.takeFault .unsupportedOpcode)

/-- The host's placing of an instruction (log entry 8): the next step runs what the decoder reads in the table word. -/
def Obligations.PlacedInstructionRunsNext : Prop :=
  ∀ (s : State) (nbits w : Nat) (i : Instr), s.mem.wf = true → decodeTableWord nbits w = some i →
    step (s.withFetchWord nbits w) = exec i (s.withFetchWord nbits w)

/-- Some instruction words of R65, R67 and R70 with the instructions they stand for. -/
def Obligations.SpecWordsDecode : Prop :=
  decode 1 = .ok (.add .position .position .position) ∧
  decode 1002 = .ok (.mul .position .immediate .position) ∧
  decode 3 = .ok (.input .position) ∧
  decode 11104 = .ok (.output .immediate) ∧
  decode 1005 = .ok (.jnz .position .immediate) ∧
  decode 106 = .ok (.jz .immediate .position) ∧
  decode 1107 = .ok (.lt .immediate .immediate .position) ∧
  decode 1008 = .ok (.eq .position .immediate .position) ∧
  decode 99999 = .ok .halt ∧
  decode 201 = .ok (.add (.reserved 0) .position .position) ∧
  decode 100001 = .ok (.add .position .position .position)

/-- Decode and encode agree on every instruction, with every mode digit 0 to 9 in every demanded place. -/
def Obligations.DecodeOfEncodeIsTheInstruction : Prop := ∀ i : Instr, decode (encode i) = .ok i

/-- R61, R67, R70: a word decodes to `i` exactly when it is `>= 0`, its two low digits are the opcode of `i` and its
next digits are the demanded mode digits of `i`, in order. -/
def Obligations.DecodeReadsExactlyItsDigits : Prop :=
  ∀ (w : Word) (i : Instr), decode w = .ok i ↔
    0 ≤ w.toInt ∧ w.toInt % 100 = (i.opcode : Int) ∧
      i.params.map (fun p => (p.2.toDigit : Int)) = (List.range i.params.length).map (fun k => digitOf w (k + 2))

/-- R70: the digits of undemanded parameters and all digits of weight `10^5` and above have no effect: two words that
agree in the digits their opcode demands decode alike. -/
def Obligations.UndemandedDigitsAreIgnored : Prop :=
  ∀ (w w' : Word) (i : Instr), decode w = .ok i → 0 ≤ w'.toInt →
    w'.toInt % 10 ^ (2 + i.params.length) = w.toInt % 10 ^ (2 + i.params.length) → decode w' = .ok i

/-- R72: the set of legal instruction words, in one statement. -/
def Obligations.LegalWordsAreThoseOfTheRule : Prop :=
  ∀ w : Word, (∃ i, decode w = .ok i ∧ i.wf = true) ↔
    0 ≤ w.toInt ∧
      (((w.toInt % 100 = 1 ∨ w.toInt % 100 = 2 ∨ w.toInt % 100 = 7 ∨ w.toInt % 100 = 8) ∧
          digitOf w 2 ≤ 1 ∧ digitOf w 3 ≤ 1 ∧ digitOf w 4 = 0) ∨
        (w.toInt % 100 = 3 ∧ digitOf w 2 = 0) ∨
        (w.toInt % 100 = 4 ∧ digitOf w 2 ≤ 1) ∨
        ((w.toInt % 100 = 5 ∨ w.toInt % 100 = 6) ∧ digitOf w 2 ≤ 1 ∧ digitOf w 3 ≤ 1) ∨
        w.toInt % 100 = 99)

/-- R73: the canonical word is `op + 100*m1 + 1000*m2 + 10000*m3` with the digit of every undemanded parameter 0, and the
canonical legal instruction words are these 28. -/
def Obligations.CanonicalLegalWordsAreTwentyEight : Prop :=
  (∀ i : Instr, (encode i).toInt =
    i.opcode + 100 * modeDigitAt i 0 + 1000 * modeDigitAt i 1 + 10000 * modeDigitAt i 2) ∧
  ∀ w : Word, (∃ i : Instr, i.wf = true ∧ encode i = w) ↔
    w ∈ ([1, 101, 1001, 1101, 2, 102, 1002, 1102, 7, 107, 1007, 1107, 8, 108, 1008, 1108, 3, 4, 104,
      5, 105, 1005, 1105, 6, 106, 1006, 1106, 99] : List Word)

/-! ## Memory and operands -/

/-- R41, R42: the read primitive answers the cell or `OutOfBounds`; the write primitive makes the same check; a write
replaces the word at its address and no other. -/
def Obligations.MemoryPrimitivesFollowTheirRules : Prop :=
  ∀ (s : State) (a : Int),
    ((0 ≤ a ∧ a < (s.mem.len.val : Int)) → ∃ v, s.mem.word? a = some v ∧ memRead s a = .ok v) ∧
    (¬ (0 ≤ a ∧ a < (s.mem.len.val : Int)) →
      memRead s a = .error .outOfBounds ∧ memWriteCheck s a = .error .outOfBounds) ∧
    ((0 ≤ a ∧ a < (s.mem.len.val : Int)) → memWriteCheck s a = .ok a.toNat) ∧
    (s.mem.wf = true → ∀ d, memWriteCheck s a = .ok d → ∀ (v : Word) (b : Int),
      (s.store d v).mem.word? b = if b = a then some v else s.mem.word? b)

/-- Log entry 3: the canonical form makes memories with the same words equal data. -/
def Obligations.CanonicalMemoryIsDeterminedByItsWords : Prop :=
  ∀ m m' : Memory, m.wf = true → m'.wf = true → m.len = m'.len → (∀ a : Int, m.word? a = m'.word? a) → m = m'

/-- R71, R84: the first demanded parameter with an illegal mode decides the fault, whatever memory holds. -/
def Obligations.FirstIllegalModeFaults : Prop :=
  ∀ (i : Instr) (s : State) (before after : List (ParamKind × Mode)) (k : ParamKind) (m : Mode) (r : FaultReason),
    i.params = before ++ (k, m) :: after → (∀ p ∈ before, modeFault p.1 p.2 = none) → modeFault k m = some r →
    exec i s = .next (s.takeFault r)

/-! ## Completion: each instruction's own effect -/

/-- R100: `add` writes the exact sum and advances by 4; nothing else changes. -/
def Obligations.AddCompletes : Prop :=
  ∀ (s : State) (m1 m2 : Mode) (a b : Word) (d : Nat), ReadsAs s 1 m1 a → ReadsAs s 2 m2 b → WritesTo s 3 d →
    fits (a.toInt + b.toInt) = true →
    exec (.add m1 m2 .position) s =
      .next { s with mem := s.mem.set d (Word.ofInt (a.toInt + b.toInt)), ip := Word.ofInt (s.ip.toInt + 4) }

/-- R101: `mul` writes the exact product and advances by 4; nothing else changes. -/
def Obligations.MulCompletes : Prop :=
  ∀ (s : State) (m1 m2 : Mode) (a b : Word) (d : Nat), ReadsAs s 1 m1 a → ReadsAs s 2 m2 b → WritesTo s 3 d →
    fits (a.toInt * b.toInt) = true →
    exec (.mul m1 m2 .position) s =
      .next { s with mem := s.mem.set d (Word.ofInt (a.toInt * b.toInt)), ip := Word.ofInt (s.ip.toInt + 4) }

/-- R110: `input` removes the head of `IN`, writes it and advances by 2. -/
def Obligations.InputCompletes : Prop :=
  ∀ (s : State) (x : Word) (rest : List Word) (d : Nat), WritesTo s 1 d → s.inQ = x :: rest →
    exec (.input .position) s =
      .next { s with mem := s.mem.set d x, inQ := rest, ip := Word.ofInt (s.ip.toInt + 2) }

/-- R111: `output` appends its operand to `OUT` and advances by 2. -/
def Obligations.OutputCompletes : Prop :=
  ∀ (s : State) (m1 : Mode) (a : Word), ReadsAs s 1 m1 a →
    exec (.output m1) s = .next { s with outQ := s.outQ ++ [a], ip := Word.ofInt (s.ip.toInt + 2) }

/-- R120: `jnz` loads IP with its target, any word at all, when `a` is not 0, and advances by 3 otherwise. -/
def Obligations.JnzCompletes : Prop :=
  ∀ (s : State) (m1 m2 : Mode) (a target : Word), ReadsAs s 1 m1 a → ReadsAs s 2 m2 target →
    exec (.jnz m1 m2) s =
      .next { s with ip := if a.toInt ≠ 0 then target else Word.ofInt (s.ip.toInt + 3) }

/-- R121: `jz` loads IP with its target when `a` is 0, and advances by 3 otherwise. -/
def Obligations.JzCompletes : Prop :=
  ∀ (s : State) (m1 m2 : Mode) (a target : Word), ReadsAs s 1 m1 a → ReadsAs s 2 m2 target →
    exec (.jz m1 m2) s =
      .next { s with ip := if a.toInt = 0 then target else Word.ofInt (s.ip.toInt + 3) }

/-- R130, R132: `lt` writes 1 or 0 by the order of the integers and advances by 4. -/
def Obligations.LtCompletes : Prop :=
  ∀ (s : State) (m1 m2 : Mode) (a b : Word) (d : Nat), ReadsAs s 1 m1 a → ReadsAs s 2 m2 b → WritesTo s 3 d →
    exec (.lt m1 m2 .position) s =
      .next { s with mem := s.mem.set d (if a.toInt < b.toInt then 1 else 0), ip := Word.ofInt (s.ip.toInt + 4) }

/-- R131, R132: `eq` writes 1 or 0 by equality of the integers and advances by 4. -/
def Obligations.EqCompletes : Prop :=
  ∀ (s : State) (m1 m2 : Mode) (a b : Word) (d : Nat), ReadsAs s 1 m1 a → ReadsAs s 2 m2 b → WritesTo s 3 d →
    exec (.eq m1 m2 .position) s =
      .next { s with mem := s.mem.set d (if a.toInt = b.toInt then 1 else 0), ip := Word.ofInt (s.ip.toInt + 4) }

/-- R140: `halt` sets `STATE` and changes nothing else, in every state. -/
def Obligations.HaltCompletes : Prop := ∀ s : State, exec .halt s = .next { s with engine := .halted }

/-! ## Each instruction's whole rule, from the fetch on, faults included -/

/-- R100: the whole cycle of an `add`, its faults in the order tested. -/
def Obligations.AddFollowsItsRule : Prop :=
  ∀ s : State, s.engine = .running → fetches s 1 →
    step s = settle s (faultsR2W s ++ [(!fits ((opA s).toInt + (opB s).toInt), .overflow)])
      (afterWrite s ((opA s).toInt + (opB s).toInt))

/-- R101: the whole cycle of a `mul`, its faults in the order tested. -/
def Obligations.MulFollowsItsRule : Prop :=
  ∀ s : State, s.engine = .running → fetches s 2 →
    step s = settle s (faultsR2W s ++ [(!fits ((opA s).toInt * (opB s).toInt), .overflow)])
      (afterWrite s ((opA s).toInt * (opB s).toInt))

/-- R110: the whole cycle of an `input`, its faults in the order tested. -/
def Obligations.InputFollowsItsRule : Prop :=
  ∀ s : State, s.engine = .running → fetches s 3 →
    step s = settle s
      [(outside s s.ip.toInt, .outOfBounds),
       (reservedDigit (digitOf (instrWord s) 2), .unsupportedMode),
       (decide (digitOf (instrWord s) 2 = 1), .invalidWriteMode),
       (writeOutside s 1, .outOfBounds),
       (s.inQ.isEmpty, .inputExhausted)]
      { s with mem := s.mem.set (wa s 1) (s.inQ.headD 0), inQ := s.inQ.tail, ip := Word.ofInt (s.ip.toInt + 2) }

/-- R111: the whole cycle of an `output`, its faults in the order tested. -/
def Obligations.OutputFollowsItsRule : Prop :=
  ∀ s : State, s.engine = .running → fetches s 4 →
    step s = settle s
      [(outside s s.ip.toInt, .outOfBounds),
       (reservedDigit (digitOf (instrWord s) 2), .unsupportedMode),
       (readOutside s 1 (digitOf (instrWord s) 2), .outOfBounds)]
      { s with outQ := s.outQ ++ [opA s], ip := Word.ofInt (s.ip.toInt + 2) }

/-- R120: the whole cycle of a `jnz`, its faults in the order tested, both parameters resolved whether or not the jump
is taken. -/
def Obligations.JnzFollowsItsRule : Prop :=
  ∀ s : State, s.engine = .running → fetches s 5 →
    step s = settle s (faultsR2 s)
      { s with ip := if (opA s).toInt ≠ 0 then opB s else Word.ofInt (s.ip.toInt + 3) }

/-- R121: the whole cycle of a `jz`, its faults in the order tested. -/
def Obligations.JzFollowsItsRule : Prop :=
  ∀ s : State, s.engine = .running → fetches s 6 →
    step s = settle s (faultsR2 s)
      { s with ip := if (opA s).toInt = 0 then opB s else Word.ofInt (s.ip.toInt + 3) }

/-- R130: the whole cycle of an `lt`, its faults in the order tested. -/
def Obligations.LtFollowsItsRule : Prop :=
  ∀ s : State, s.engine = .running → fetches s 7 →
    step s = settle s (faultsR2W s) (afterWrite s (if (opA s).toInt < (opB s).toInt then 1 else 0))

/-- R131: the whole cycle of an `eq`, its faults in the order tested. -/
def Obligations.EqFollowsItsRule : Prop :=
  ∀ s : State, s.engine = .running → fetches s 8 →
    step s = settle s (faultsR2W s) (afterWrite s (if (opA s).toInt = (opB s).toInt then 1 else 0))

/-- R140: the whole cycle of a `halt`. -/
def Obligations.HaltFollowsItsRule : Prop :=
  ∀ s : State, s.engine = .running → fetches s 99 →
    step s = settle s [(outside s s.ip.toInt, .outOfBounds)] { s with engine := .halted }

/-! ## Frames -/

/-- What `add`, `mul`, `lt` and `eq` leave unchanged: every cell but the one at the address that `writeAddr s 3` answers,
`IN`, `OUT`, `MEM_LEN`, and `STATE` and `FAULT` unless the cycle faults. IP may change. -/
def Obligations.StoringInstructionsFrame : Prop :=
  ∀ (s t : State) (m1 m2 m3 : Mode) (i : Instr), s.mem.wf = true →
    (i = .add m1 m2 m3 ∨ i = .mul m1 m2 m3 ∨ i = .lt m1 m2 m3 ∨ i = .eq m1 m2 m3) → exec i s = .next t →
    t.inQ = s.inQ ∧ t.outQ = s.outQ ∧ t.mem.len = s.mem.len ∧
    ((t.engine = s.engine ∧ t.faultReg = s.faultReg) ∨ ∃ r, t = s.takeFault r) ∧
    (∀ d, writeAddr s 3 = .ok d → ∀ a : Int, a ≠ d → t.mem.word? a = s.mem.word? a) ∧
    (∀ r, writeAddr s 3 = .error r → ∀ a : Int, t.mem.word? a = s.mem.word? a)

/-- What `input` leaves unchanged: every cell but the one at the address that `writeAddr s 1` answers, `OUT`, `MEM_LEN`,
`IN` but for its head, and `STATE` and `FAULT` unless the cycle faults. IP may change. -/
def Obligations.InputFrame : Prop :=
  ∀ (s t : State) (m1 : Mode), s.mem.wf = true → exec (.input m1) s = .next t →
    t.outQ = s.outQ ∧ t.mem.len = s.mem.len ∧
    ((t.engine = s.engine ∧ t.faultReg = s.faultReg ∧ ∃ x, s.inQ = x :: t.inQ) ∨ ∃ r, t = s.takeFault r) ∧
    (∀ d, writeAddr s 1 = .ok d → ∀ a : Int, a ≠ d → t.mem.word? a = s.mem.word? a) ∧
    (∀ r, writeAddr s 1 = .error r → ∀ a : Int, t.mem.word? a = s.mem.word? a)

/-- What `output`, `jnz`, `jz` and `halt` leave unchanged: every cell, `MEM_LEN` and `IN`; `OUT` but for `output`; `STATE`
but for `halt`, and `FAULT`, unless the cycle faults; `halt` keeps IP, the others may change it. -/
def Obligations.NonStoringInstructionsFrame : Prop :=
  ∀ (s t : State) (m1 m2 : Mode) (i : Instr),
    (i = .output m1 ∨ i = .jnz m1 m2 ∨ i = .jz m1 m2 ∨ i = .halt) → exec i s = .next t →
    (∀ a : Int, t.mem.word? a = s.mem.word? a) ∧ t.mem.len = s.mem.len ∧ t.inQ = s.inQ ∧
    (i ≠ .output m1 → t.outQ = s.outQ) ∧
    ((t.faultReg = s.faultReg ∧ (i ≠ .halt → t.engine = s.engine)) ∨ ∃ r, t = s.takeFault r) ∧
    (i = .halt → t.ip = s.ip ∧ t.faultReg = s.faultReg)

/-! ## Rules about the whole machine -/

/-- R89: COMMIT applies all the updates of the fetched instruction's cycle together, or, where the cycle faults, none of
them, and then only `STATE` and `FAULT` change. -/
def Obligations.CyclesCommitAllOrNothing : Prop :=
  ∀ s t : State, s.engine = .running → step s = .next t →
    (∃ r, t = { s with engine := .faulted, faultReg := some r }) ∨
    ∃ w i, s.mem.word? s.ip.toInt = some w ∧ decode w = .ok i ∧ Commits i s t

/-- R142: "`halt` is the only instruction that changes the engine's state on purpose". -/
def Obligations.OnlyHaltHalts : Prop :=
  ∀ s t : State, s.engine = .running → step s = .next t →
    (t.engine = .halted ↔ ∃ w, s.mem.word? s.ip.toInt = some w ∧ 0 ≤ w.toInt ∧ w.toInt % 100 = 99)

/-- R151: which instructions raise which fault. -/
def Obligations.FaultReasonsByInstruction : Prop :=
  ∀ (s t : State) (i : Instr), s.engine = .running → exec i s = .next t → t.engine = .faulted →
    (t.faultReg = some .outOfBounds → i ≠ .halt) ∧
    t.faultReg ≠ some .unsupportedOpcode ∧
    (t.faultReg = some .invalidWriteMode → i.opcode = 1 ∨ i.opcode = 2 ∨ i.opcode = 3 ∨ i.opcode = 7 ∨ i.opcode = 8) ∧
    (t.faultReg = some .inputExhausted → i.opcode = 3) ∧
    (t.faultReg = some .unsupportedMode → i ≠ .halt) ∧
    (t.faultReg = some .overflow → i.opcode = 1 ∨ i.opcode = 2) ∧
    (i.wf = true → t.faultReg ≠ some .invalidWriteMode ∧ t.faultReg ≠ some .unsupportedMode)

/-- R24, R25, R151: the codes of the status registers (log entry 10: the numbers carry no meaning). -/
def Obligations.StatusRegisterCodes : Prop :=
  EngineState.code .running = 0 ∧ EngineState.code .halted = 1 ∧ EngineState.code .faulted = 2 ∧
  faultCode none = 0 ∧ faultCode (some .outOfBounds) = 1 ∧ faultCode (some .unsupportedOpcode) = 2 ∧
  faultCode (some .invalidWriteMode) = 3 ∧ faultCode (some .inputExhausted) = 4 ∧
  faultCode (some .unsupportedMode) = 5 ∧ faultCode (some .overflow) = 6 ∧
  (∀ e : EngineState, e.code ≠ 3) ∧ (∀ f : Option FaultReason, faultCode f ≠ 7)

/-- R23: "The source's \"non-negative\" therefore holds of IP in every state from which a cycle completes". -/
def Obligations.CompletedCyclesStartInsideMemory : Prop :=
  ∀ s : State, Completes s → 0 ≤ s.ip.toInt ∧ s.ip.toInt < (s.mem.len.val : Int)

/-- R90, R91: a completed instruction other than `halt` advances IP by exactly its length, with no wrap-around, or is a
jump and loads IP with its resolved target. -/
def Obligations.AdvanceIsExactOrAJump : Prop :=
  ∀ (s t : State) (i : Instr), s.engine = .running → i ≠ .halt → exec i s = .next t → t.engine = .running →
    t.ip.toInt = s.ip.toInt + (i.lengthWords : Int) ∨
      ((i.opcode = 5 ∨ i.opcode = 6) ∧ ∃ m1 m2, i.params = [(.read, m1), (.read, m2)] ∧ ReadsAs s 2 m2 t.ip)

/-- R121: "for every `a` exactly one of `jnz a, t` and `jz a, t` is taken." -/
def Obligations.ExactlyOneOfJnzAndJzIsTaken : Prop :=
  ∀ (s : State) (m1 m2 : Mode) (a target : Word), ReadsAs s 1 m1 a → ReadsAs s 2 m2 target →
    ∃ t u, exec (.jnz m1 m2) s = .next t ∧ exec (.jz m1 m2) s = .next u ∧
      ((t.ip = target ∧ u.ip.toInt = s.ip.toInt + 3) ∨ (u.ip = target ∧ t.ip.toInt = s.ip.toInt + 3))

/-- R104, in the case where the instruction's other read parameter is not one of the two altered words (log entry 11): an
`add` or `mul` whose parameter 1, in position mode, would read `x`, and its twin with parameter 1 in immediate mode and raw
word `x` (instruction word increased by 100), write the same result to the same `dst` and advance alike; the memories then
differ at most in the two altered words. -/
def Obligations.ImmediateTwinWritesTheSame : Prop :=
  ∀ (s t : State) (w x : Word) (m2 m3 : Mode) (n : Nat), s.mem.wf = true → s.engine = .running →
    s.ip.toInt = n → s.mem.word? n = some w →
    (decode w = .ok (.add .position m2 m3) ∨ decode w = .ok (.mul .position m2 m3)) → ReadsAs s 1 .position x →
    (m2 = .position → (raw s 2).toInt ≠ n ∧ (raw s 2).toInt ≠ n + 1) →
    step s = .next t → t.engine = .running →
    ∃ t', step ((s.store (n + 1) x).store n (Word.ofInt (w.toInt + 100))) = .next t' ∧ t'.engine = .running ∧
      t'.ip = t.ip ∧ (∀ d, WritesTo s 3 d → t'.mem.word? d = t.mem.word? d) ∧
      ∀ a : Int, a ≠ n → a ≠ n + 1 → t'.mem.word? a = t.mem.word? a

/-- R52: "A write is seen by every later fetch, with nothing needed in between", for the very next instruction word. -/
def Obligations.WrittenWordIsFetchedNext : Prop :=
  ∀ (s t : State) (m1 m2 : Mode) (a b : Word) (d : Nat) (i : Instr), s.mem.wf = true → s.engine = .running →
    ReadsAs s 1 m1 a → ReadsAs s 2 m2 b → WritesTo s 3 d → exec (.add m1 m2 .position) s = .next t →
    t.engine = .running → (d : Int) = s.ip.toInt + 4 → decode (Word.ofInt (a.toInt + b.toInt)) = .ok i →
    step t = exec i t

/-- R94: the step of a `Running` state is the complete cycle of the spec's pseudocode. -/
def Obligations.StepIsThePseudocodeCycle : Prop :=
  ∀ s : State, s.engine = .running → step s = .next (Pseudocode.cycle s)
end

