-- ==== Sys2Proof/Laws/State.lean ====
section
/-!
SUPPORT. One lemma per field per update of the state, so that no proof unfolds a record update.
-/

namespace Sys2Proof.Machine

section Updates

variable (s : State)

@[simp] theorem State.store_mem (a : Nat) (v : Word) : (s.store a v).mem = s.mem.set a v := rfl
@[simp] theorem State.store_ip (a : Nat) (v : Word) : (s.store a v).ip = s.ip := rfl
@[simp] theorem State.store_engine (a : Nat) (v : Word) : (s.store a v).engine = s.engine := rfl
@[simp] theorem State.store_faultReg (a : Nat) (v : Word) : (s.store a v).faultReg = s.faultReg := rfl
@[simp] theorem State.store_inQ (a : Nat) (v : Word) : (s.store a v).inQ = s.inQ := rfl
@[simp] theorem State.store_outQ (a : Nat) (v : Word) : (s.store a v).outQ = s.outQ := rfl

@[simp] theorem State.advance_mem (n : Nat) : (s.advance n).mem = s.mem := rfl
@[simp] theorem State.advance_ip (n : Nat) : (s.advance n).ip = s.ip + BitVec.ofNat 64 n := rfl
@[simp] theorem State.advance_engine (n : Nat) : (s.advance n).engine = s.engine := rfl
@[simp] theorem State.advance_faultReg (n : Nat) : (s.advance n).faultReg = s.faultReg := rfl
@[simp] theorem State.advance_inQ (n : Nat) : (s.advance n).inQ = s.inQ := rfl
@[simp] theorem State.advance_outQ (n : Nat) : (s.advance n).outQ = s.outQ := rfl

@[simp] theorem State.jump_mem (target : Word) : (s.jump target).mem = s.mem := rfl
@[simp] theorem State.jump_ip (target : Word) : (s.jump target).ip = target := rfl
@[simp] theorem State.jump_engine (target : Word) : (s.jump target).engine = s.engine := rfl
@[simp] theorem State.jump_faultReg (target : Word) : (s.jump target).faultReg = s.faultReg := rfl
@[simp] theorem State.jump_inQ (target : Word) : (s.jump target).inQ = s.inQ := rfl
@[simp] theorem State.jump_outQ (target : Word) : (s.jump target).outQ = s.outQ := rfl

@[simp] theorem State.emit_mem (v : Word) : (s.emit v).mem = s.mem := rfl
@[simp] theorem State.emit_ip (v : Word) : (s.emit v).ip = s.ip := rfl
@[simp] theorem State.emit_engine (v : Word) : (s.emit v).engine = s.engine := rfl
@[simp] theorem State.emit_faultReg (v : Word) : (s.emit v).faultReg = s.faultReg := rfl
@[simp] theorem State.emit_inQ (v : Word) : (s.emit v).inQ = s.inQ := rfl
@[simp] theorem State.emit_outQ (v : Word) : (s.emit v).outQ = s.outQ ++ [v] := rfl

@[simp] theorem State.stopHalted_mem : (s.stopHalted).mem = s.mem := rfl
@[simp] theorem State.stopHalted_ip : (s.stopHalted).ip = s.ip := rfl
@[simp] theorem State.stopHalted_engine : (s.stopHalted).engine = .halted := rfl
@[simp] theorem State.stopHalted_faultReg : (s.stopHalted).faultReg = s.faultReg := rfl
@[simp] theorem State.stopHalted_inQ : (s.stopHalted).inQ = s.inQ := rfl
@[simp] theorem State.stopHalted_outQ : (s.stopHalted).outQ = s.outQ := rfl

@[simp] theorem State.takeFault_mem (r : FaultReason) : (s.takeFault r).mem = s.mem := rfl
@[simp] theorem State.takeFault_ip (r : FaultReason) : (s.takeFault r).ip = s.ip := rfl
@[simp] theorem State.takeFault_engine (r : FaultReason) : (s.takeFault r).engine = .faulted := rfl
@[simp] theorem State.takeFault_faultReg (r : FaultReason) : (s.takeFault r).faultReg = some r := rfl
@[simp] theorem State.takeFault_inQ (r : FaultReason) : (s.takeFault r).inQ = s.inQ := rfl
@[simp] theorem State.takeFault_outQ (r : FaultReason) : (s.takeFault r).outQ = s.outQ := rfl

@[simp] theorem State.reentered_mem : (s.reentered).mem = s.mem := rfl
@[simp] theorem State.reentered_ip : (s.reentered).ip = s.ip := rfl
@[simp] theorem State.reentered_engine : (s.reentered).engine = .running := rfl
@[simp] theorem State.reentered_faultReg : (s.reentered).faultReg = none := rfl
@[simp] theorem State.reentered_inQ : (s.reentered).inQ = s.inQ := rfl
@[simp] theorem State.reentered_outQ : (s.reentered).outQ = s.outQ := rfl

@[simp] theorem Memory.set_len (m : Memory) (a : Nat) (v : Word) : (m.set a v).len = m.len := rfl
@[simp] theorem Memory.set_cells (m : Memory) (a : Nat) (v : Word) : (m.set a v).cells = putCell m.cells a v := rfl

/-- Taking a fault and going back to before the cycle are inverse on a state that was `Running` without a fault. -/
theorem State.takeFault_reentered (r : FaultReason) (h : s.engine = .running) (hf : s.faultReg = none) :
    (s.takeFault r).reentered = s := by
  cases s; simp_all [State.takeFault, State.reentered]

end Updates

end Sys2Proof.Machine
end

