-- ==== Sys2Proof/Laws/Memory.lean ====
section
/-!
SUPPORT. Memory: a read after a write, the canonical form and its uniqueness, and the primitives of R41 and R42.
-/

namespace Sys2Proof.Machine

/-! ## Cells -/

theorem canonicalFrom_cons {lo len k : Nat} {v : Word} {rest : List (Nat × Word)} :
    canonicalFrom lo len ((k, v) :: rest) = true ↔
      lo ≤ k ∧ k < len ∧ v ≠ unlistedWord ∧ canonicalFrom (k + 1) len rest = true := by
  simp [canonicalFrom, and_assoc]

theorem canonicalFrom_weaken {lo lo' len : Nat} {l : List (Nat × Word)} (hlo : lo' ≤ lo)
    (h : canonicalFrom lo len l = true) : canonicalFrom lo' len l = true := by
  cases l with
  | nil => rfl
  | cons p rest =>
    obtain ⟨k, v⟩ := p
    rw [canonicalFrom_cons] at h ⊢
    exact ⟨by omega, h.2⟩

/-- Below the first address of a canonical list nothing is listed. -/
theorem lookupCell_below {lo len a : Nat} {l : List (Nat × Word)} (h : canonicalFrom lo len l = true) (ha : a < lo) :
    lookupCell l a = unlistedWord := by
  induction l generalizing lo with
  | nil => rfl
  | cons p rest ih =>
    obtain ⟨k, v⟩ := p
    rw [canonicalFrom_cons] at h
    have hk : k ≠ a := by omega
    simpa [lookupCell, hk] using ih h.2.2.2 (by omega)

/-- From `len` on nothing is listed. -/
theorem lookupCell_above {lo len a : Nat} {l : List (Nat × Word)} (h : canonicalFrom lo len l = true) (ha : len ≤ a) :
    lookupCell l a = unlistedWord := by
  induction l generalizing lo with
  | nil => rfl
  | cons p rest ih =>
    obtain ⟨k, v⟩ := p
    rw [canonicalFrom_cons] at h
    have hk : k ≠ a := by omega
    simpa [lookupCell, hk] using ih h.2.2.2

theorem putCell_canonical {lo len a : Nat} {v : Word} {l : List (Nat × Word)} (h : canonicalFrom lo len l = true)
    (hlo : lo ≤ a) (ha : a < len) : canonicalFrom lo len (putCell l a v) = true := by
  induction l generalizing lo with
  | nil =>
    by_cases hv : v = unlistedWord
    · simp [putCell, hv, canonicalFrom]
    · simp [putCell, hv, canonicalFrom, hlo, ha]
  | cons p rest ih =>
    obtain ⟨k, w⟩ := p
    have h' := h
    rw [canonicalFrom_cons] at h
    obtain ⟨hk, hkl, hw, hrest⟩ := h
    unfold putCell
    by_cases hak : a < k
    · by_cases hv : v = unlistedWord
      · simpa [hak, hv] using h'
      · simp only [hak, hv, if_true, if_false, canonicalFrom_cons]
        exact ⟨hlo, ha, hv, by omega, hkl, hw, hrest⟩
    · by_cases hake : a = k
      · subst hake
        by_cases hv : v = unlistedWord
        · simpa [hv] using canonicalFrom_weaken (by omega) hrest
        · simp only [lt_irrefl, hv, if_false, if_true, canonicalFrom_cons]
          exact ⟨hlo, ha, hv, hrest⟩
      · simp only [hak, hake, if_false, canonicalFrom_cons]
        exact ⟨hk, hkl, hw, ih hrest (by omega)⟩

theorem lookupCell_putCell {lo len a b : Nat} {v : Word} {l : List (Nat × Word)} (h : canonicalFrom lo len l = true) :
    lookupCell (putCell l a v) b = if a = b then v else lookupCell l b := by
  induction l generalizing lo with
  | nil =>
    by_cases hv : v = unlistedWord
    · by_cases hab : a = b <;> simp [putCell, hv, lookupCell, hab]
    · simp [putCell, hv, lookupCell]
  | cons p rest ih =>
    obtain ⟨k, w⟩ := p
    rw [canonicalFrom_cons] at h
    obtain ⟨hk, hkl, hw, hrest⟩ := h
    have hbelow := lookupCell_below (a := b) hrest
    unfold putCell
    by_cases hak : a < k
    · by_cases hv : v = unlistedWord
      · by_cases hab : a = b
        · subst hab
          have : k ≠ a := by omega
          simp [hak, hv, lookupCell, this, hbelow (by omega)]
        · simp [hak, hv, hab]
      · simp [hak, hv, lookupCell]
    · by_cases hake : a = k
      · subst hake
        by_cases hv : v = unlistedWord
        · by_cases hab : a = b
          · subst hab
            simp [hv, hbelow (by omega)]
          · simp [hv, lookupCell, hab]
        · by_cases hab : a = b <;> simp [hv, lookupCell, hab]
      · by_cases hkb : k = b
        · subst hkb
          simp [hak, hake, lookupCell]
        · simp [hak, hake, lookupCell, hkb, ih hrest]

/-- Canonical lists with the same words are the same list: equal memories are equal data. -/
theorem canonicalFrom_ext {lo len : Nat} {l l' : List (Nat × Word)} (h : canonicalFrom lo len l = true)
    (h' : canonicalFrom lo len l' = true) (heq : ∀ a, lookupCell l a = lookupCell l' a) : l = l' := by
  induction l generalizing lo l' with
  | nil =>
    cases l' with
    | nil => rfl
    | cons p rest =>
      obtain ⟨k, v⟩ := p
      rw [canonicalFrom_cons] at h'
      have := heq k
      simp only [lookupCell, if_true] at this
      exact absurd this.symm h'.2.2.1
  | cons p rest ih =>
    obtain ⟨k, v⟩ := p
    have hc := h
    rw [canonicalFrom_cons] at h
    cases l' with
    | nil =>
      have := heq k
      simp only [lookupCell, if_true] at this
      exact absurd this h.2.2.1
    | cons p' rest' =>
      obtain ⟨k', v'⟩ := p'
      have hc' := h'
      rw [canonicalFrom_cons] at h'
      have hkk : k = k' := by
        rcases Nat.lt_trichotomy k k' with hlt | heq' | hlt
        · have hk := heq k
          simp only [lookupCell, if_true] at hk
          rw [if_neg (by omega), lookupCell_below h'.2.2.2 (by omega)] at hk
          exact absurd hk h.2.2.1
        · exact heq'
        · have hk := heq k'
          simp only [lookupCell, if_true] at hk
          rw [if_neg (by omega), lookupCell_below h.2.2.2 (by omega)] at hk
          exact absurd hk.symm h'.2.2.1
      subst hkk
      have hv : v = v' := by simpa [lookupCell] using heq k
      subst hv
      have hrest : rest = rest' := by
        refine ih h.2.2.2 h'.2.2.2 fun a => ?_
        by_cases hka : k = a
        · subst hka
          rw [lookupCell_below h.2.2.2 (by omega), lookupCell_below h'.2.2.2 (by omega)]
        · simpa [lookupCell, hka] using heq a
      rw [hrest]

/-! ## Memories -/

theorem Memory.reset_wf : State.reset.mem.wf = true := rfl

/-- Every committed write keeps the canonical form. -/
theorem Memory.set_wf {m : Memory} {a : Nat} {v : Word} (h : m.wf = true) (ha : a < m.len.val) : (m.set a v).wf = true :=
  putCell_canonical h (Nat.zero_le _) ha

/-- R42: "`MEM[a] <- v` and no other cell changes". -/
theorem Memory.word?_set {m : Memory} {a : Nat} {v : Word} (h : m.wf = true) (ha : a < m.len.val) (b : Int) :
    (m.set a v).word? b = if b = (a : Int) then some v else m.word? b := by
  unfold Memory.word? Memory.valid
  simp only [Memory.set_len, Memory.set_cells, lookupCell_putCell (b := b.toNat) h]
  by_cases hb : b = (a : Int)
  · subst hb
    simp [ha]
  · simp only [if_neg hb]
    by_cases hv : 0 ≤ b ∧ b < (m.len.val : Int)
    · have : a ≠ b.toNat := by omega
      simp [hv, this]
    · simp [hv]

theorem Memory.word?_isSome {m : Memory} {a : Int} : (m.word? a).isSome = true ↔ 0 ≤ a ∧ a < (m.len.val : Int) := by
  unfold Memory.word? Memory.valid
  by_cases h : 0 ≤ a ∧ a < (m.len.val : Int)
  · simp [h]
  · rw [if_neg h]; exact iff_of_false (by simp) h

theorem Memory.word?_eq_none {m : Memory} {a : Int} : m.word? a = none ↔ ¬ (0 ≤ a ∧ a < (m.len.val : Int)) := by
  unfold Memory.word? Memory.valid
  by_cases h : 0 ≤ a ∧ a < (m.len.val : Int)
  · simp [h]
  · rw [if_neg h]; exact iff_of_true rfl h

theorem Memory.word?_some_valid {m : Memory} {a : Int} {v : Word} (h : m.word? a = some v) :
    0 ≤ a ∧ a < (m.len.val : Int) :=
  Memory.word?_isSome.mp (by rw [h]; rfl)

theorem Memory.word?_of_valid {m : Memory} {a : Int} (h : 0 ≤ a ∧ a < (m.len.val : Int)) :
    m.word? a = some (lookupCell m.cells a.toNat) := by
  unfold Memory.word? Memory.valid
  exact if_pos h

/-! ## The primitives -/

/-- R41: what `MemRead` answers. -/
theorem memRead_eq_ok {s : State} {a : Int} {v : Word} : memRead s a = .ok v ↔ s.mem.word? a = some v := by
  unfold memRead; cases s.mem.word? a <;> simp

theorem memRead_eq_error {s : State} {a : Int} {r : FaultReason} :
    memRead s a = .error r ↔ s.mem.word? a = none ∧ r = .outOfBounds := by
  unfold memRead; cases s.mem.word? a <;> simp [eq_comm]

/-- R42, R86: what the bound check of a destination answers. -/
theorem memWriteCheck_eq_ok {s : State} {a : Int} {d : Nat} :
    memWriteCheck s a = .ok d ↔ d < s.mem.len.val ∧ a = (d : Int) := by
  unfold memWriteCheck Memory.valid
  split
  · constructor
    · intro h; simp only [Except.ok.injEq] at h; omega
    · rintro ⟨h1, h2⟩; simp [h2]
  · constructor
    · intro h; simp at h
    · rintro ⟨h1, h2⟩; omega

theorem memWriteCheck_eq_error {s : State} {a : Int} {r : FaultReason} :
    memWriteCheck s a = .error r ↔ s.mem.word? a = none ∧ r = .outOfBounds := by
  rw [Memory.word?_eq_none]
  unfold memWriteCheck Memory.valid
  split
  · rename_i h; simp [h]
  · rename_i h; simp [h, eq_comm]

/-- R112, R155: what `next_input()` answers. -/
theorem nextInput_eq_ok {s t : State} {x : Word} :
    nextInput s = .ok (x, t) ↔ s.inQ = x :: t.inQ ∧ t = { s with inQ := t.inQ } := by
  unfold nextInput
  cases hq : s.inQ with
  | nil => simp
  | cons y rest =>
    constructor
    · intro h
      simp only [Except.ok.injEq, Prod.mk.injEq] at h
      obtain ⟨rfl, rfl⟩ := h
      exact ⟨rfl, rfl⟩
    · rintro ⟨h, h2⟩
      simp only [List.cons.injEq] at h
      obtain ⟨rfl, h⟩ := h
      simp only [Except.ok.injEq, Prod.mk.injEq, true_and]
      rw [h]; exact h2.symm

theorem nextInput_eq_error {s : State} {r : FaultReason} :
    nextInput s = .error r ↔ s.inQ = [] ∧ r = .inputExhausted := by
  unfold nextInput; cases s.inQ <;> simp [eq_comm]

end Sys2Proof.Machine
end

