-- ==== Sys2Proof/Laws/Cycle.lean ====
section
/-!
SUPPORT. What a sequence of phases and the end of a cycle can answer.
-/

namespace Sys2Proof.Machine

/-- Two phases in sequence pass exactly when both pass. -/
theorem Cycle.bind_eq_ok {α β : Type} {c : Cycle α} {f : α → Cycle β} {b : β} :
    (c >>= f) = .ok b ↔ ∃ a, c = .ok a ∧ f a = .ok b := by
  cases c <;> simp [bind, Except.bind]

/-- Two phases in sequence fault exactly when the first does, or it passes and the second does. -/
theorem Cycle.bind_eq_error {α β : Type} {c : Cycle α} {f : α → Cycle β} {r : FaultReason} :
    (c >>= f) = .error r ↔ c = .error r ∨ ∃ a, c = .ok a ∧ f a = .error r := by
  cases c <;> simp [bind, Except.bind]

@[simp] theorem Cycle.ok_bind {α β : Type} (a : α) (f : α → Cycle β) : ((Except.ok a : Cycle α) >>= f) = f a := rfl

@[simp] theorem Cycle.error_bind {α β : Type} (r : FaultReason) (f : α → Cycle β) :
    ((Except.error r : Cycle α) >>= f) = .error r := rfl

@[simp] theorem Cycle.pure_eq {α : Type} (a : α) : (pure a : Cycle α) = .ok a := rfl

@[simp] theorem endCycle_ok (s t : State) : endCycle s (.ok t) = .next t := rfl

/-- R160: the fault entry. -/
@[simp] theorem endCycle_error (s : State) (r : FaultReason) : endCycle s (.error r) = .next (s.takeFault r) := rfl

/-- R89: a cycle ends with all its updates or with the fault entry, and nothing else. -/
theorem endCycle_cases {s t : State} {c : Cycle State} (h : endCycle s c = .next t) :
    c = .ok t ∨ ∃ r, c = .error r ∧ t = s.takeFault r := by
  cases c with
  | ok u => left; simpa using h
  | error r => right; exact ⟨r, rfl, by simpa [eq_comm] using h⟩

/-- R80: a cycle always has a next state. -/
theorem endCycle_next (s : State) (c : Cycle State) : ∃ t, endCycle s c = .next t := by
  cases c <;> simp

end Sys2Proof.Machine
end

