-- ==== Sys2Proof/Laws/Decode.lean ====
section
/-!
SUPPORT. The decoder's and the encoder's small lemmas.
-/

namespace Sys2Proof

@[simp] theorem Mode.ofDigit_toDigit (m : Mode) : Mode.ofDigit m.toDigit = m := by
  cases m with
  | position => rfl
  | immediate => rfl
  | reserved k =>
    simp only [Mode.toDigit, Mode.ofDigit, Mode.reserved.injEq]
    exact Fin.ext (Nat.mod_eq_of_lt k.isLt)

theorem Mode.toDigit_ofDigit {d : Nat} (h : d < 10) : (Mode.ofDigit d).toDigit = d := by
  match d, h with
  | 0, _ => rfl
  | 1, _ => rfl
  | d + 2, h =>
    simp only [Mode.ofDigit, Mode.toDigit]
    have : (Fin.ofNat 8 d).val = d % 8 := rfl
    omega

theorem Mode.toDigit_lt (m : Mode) : m.toDigit < 10 := by
  cases m with
  | position => decide
  | immediate => decide
  | reserved k => simp only [Mode.toDigit]; omega

theorem digit_lt (w k : Nat) : digit w k < 10 := Nat.mod_lt _ (by decide)

/-- R63: a negative word. -/
theorem decode_negative {w : Word} (h : w.toInt < 0) : decode w = .error .negative := by
  simp [decode, decodeFields, h]

/-- R62, R67: a word that is not negative. -/
theorem decode_nonnegative {w : Word} (h : 0 ≤ w.toInt) :
    decode w = Fields.toInstr
      { opcode := w.toInt.toNat % 100, m1 := Mode.ofDigit (digit w.toInt.toNat 2),
        m2 := Mode.ofDigit (digit w.toInt.toNat 3), m3 := Mode.ofDigit (digit w.toInt.toNat 4) } := by
  simp [decode, decodeFields, not_lt.mpr h]

/-- Only words `>= 0` decode. -/
theorem decode_ok_nonnegative {w : Word} {i : Instr} (h : decode w = .ok i) : 0 ≤ w.toInt := by
  by_contra hn
  rw [decode_negative (by omega)] at h
  simp at h

/-- R67: what the dispatch table selects carries the opcode it was selected by. -/
theorem Fields.toInstr_opcode {f : Fields} {i : Instr} (h : f.toInstr = .ok i) : i.opcode = f.opcode := by
  unfold Fields.toInstr at h
  split at h <;> simp_all only [Except.ok.injEq, reduceCtorEq] <;> subst h <;> simp_all [Instr.opcode]

theorem Instr.opcode_lt (i : Instr) : i.opcode < 100 := by cases i <;> simp [Instr.opcode]

theorem Instr.params_length_le (i : Instr) : i.params.length ≤ 3 := by cases i <;> simp [Instr.params]

end Sys2Proof
end

