-- ==== Sys2Proof/Laws/Operands.lean ====
section
/-!
SUPPORT. What the mode check, the Operand Resolver and the ALU can answer, each said once.
-/

namespace Sys2Proof.Machine

/-! ## The mode check -/

theorem checkMode_read_eq_ok {m : Mode} {u : Unit} : checkMode .read m = .ok u ↔ m.legalRead = true := by
  cases m <;> simp [checkMode, Mode.legalRead]

theorem checkMode_write_eq_ok {m : Mode} {u : Unit} : checkMode .write m = .ok u ↔ m = .position := by
  cases m <;> simp [checkMode]

theorem Mode.legalWrite_iff {m : Mode} : m.legalWrite = true ↔ m = .position := by
  cases m <;> simp [Mode.legalWrite]

theorem checkMode_eq_error {k : ParamKind} {m : Mode} {r : FaultReason} :
    checkMode k m = .error r ↔
      (∃ d, m = .reserved d ∧ r = .unsupportedMode) ∨ (m = .immediate ∧ k = .write ∧ r = .invalidWriteMode) := by
  cases m <;> cases k <;> simp [checkMode, eq_comm]

theorem modeCheck_cons (k : ParamKind) (m : Mode) (rest : List (ParamKind × Mode)) :
    modeCheck ((k, m) :: rest) = (checkMode k m >>= fun _ => modeCheck rest) := rfl

/-- R71: the check passes exactly when every demanded parameter's mode is legal. -/
theorem modeCheck_eq_ok {ps : List (ParamKind × Mode)} {u : Unit} :
    modeCheck ps = .ok u ↔ ∀ p ∈ ps, checkMode p.1 p.2 = .ok () := by
  induction ps with
  | nil => simp [modeCheck]
  | cons p rest ih =>
    obtain ⟨k, m⟩ := p
    rw [modeCheck_cons, Cycle.bind_eq_ok]
    simp only [ih, List.mem_cons, forall_eq_or_imp]
    exact ⟨fun ⟨_, h, hr⟩ => ⟨h, hr⟩, fun ⟨h, hr⟩ => ⟨(), h, hr⟩⟩

/-- R71: the check faults exactly at the first illegal parameter. -/
theorem modeCheck_eq_error {ps : List (ParamKind × Mode)} {r : FaultReason} :
    modeCheck ps = .error r ↔
      ∃ before k m after, ps = before ++ (k, m) :: after ∧ (∀ p ∈ before, checkMode p.1 p.2 = .ok ()) ∧
        checkMode k m = .error r := by
  induction ps with
  | nil => simp [modeCheck]
  | cons p rest ih =>
    obtain ⟨k, m⟩ := p
    rw [modeCheck_cons, Cycle.bind_eq_error]
    constructor
    · rintro (h | ⟨u, h, h2⟩)
      · exact ⟨[], k, m, rest, rfl, by simp, h⟩
      · obtain ⟨before, k', m', after, rfl, hb, he⟩ := ih.mp h2
        refine ⟨(k, m) :: before, k', m', after, rfl, ?_, he⟩
        intro p hp
        rcases List.mem_cons.mp hp with rfl | hp
        · exact h
        · exact hb p hp
    · rintro ⟨before, k', m', after, heq, hb, he⟩
      cases before with
      | nil =>
        simp only [List.nil_append, List.cons.injEq, Prod.mk.injEq] at heq
        obtain ⟨⟨rfl, rfl⟩, -⟩ := heq
        exact .inl he
      | cons q before =>
        simp only [List.cons_append, List.cons.injEq] at heq
        obtain ⟨rfl, rfl⟩ := heq
        exact .inr ⟨(), hb (k, m) List.mem_cons_self, ih.mpr ⟨before, k', m', after, rfl, fun p hp => hb p (by simp [hp]), he⟩⟩

/-- The mode check raises no other fault. -/
theorem modeCheck_reason {ps : List (ParamKind × Mode)} {r : FaultReason} (h : modeCheck ps = .error r) :
    r = .unsupportedMode ∨ r = .invalidWriteMode := by
  obtain ⟨_, _, _, _, _, _, he⟩ := modeCheck_eq_error.mp h
  rcases checkMode_eq_error.mp he with ⟨_, _, rfl⟩ | ⟨_, _, rfl⟩ <;> simp

/-! ## The Operand Resolver -/

theorem rawParam_eq_ok {s : State} {i : Nat} {p : Word} :
    rawParam s i = .ok p ↔ s.mem.word? (s.ip.toInt + i) = some p := memRead_eq_ok

theorem rawParam_eq_error {s : State} {i : Nat} {r : FaultReason} :
    rawParam s i = .error r ↔ s.mem.word? (s.ip.toInt + i) = none ∧ r = .outOfBounds := memRead_eq_error

/-- R85: when `RD(i)` has a value, and which. -/
theorem readParam_eq_ok {s : State} {i : Nat} {m : Mode} {v : Word} :
    readParam s i m = .ok v ↔ ∃ p, s.mem.word? (s.ip.toInt + i) = some p ∧
      ((m = .immediate ∧ v = p) ∨ (m = .position ∧ s.mem.word? p.toInt = some v)) := by
  unfold readParam
  rw [Cycle.bind_eq_ok]
  simp only [rawParam_eq_ok]
  cases m <;> simp only [memRead_eq_ok, reduceCtorEq, false_and, true_and, or_false, false_or, and_false, exists_false,
    Except.ok.injEq, eq_comm (a := v)]

/-- R85: when `RD(i)` faults in a legal mode. -/
theorem readParam_eq_error {s : State} {i : Nat} {m : Mode} {r : FaultReason} (hm : m.legalRead = true) :
    readParam s i m = .error r ↔ r = .outOfBounds ∧
      (s.mem.word? (s.ip.toInt + i) = none ∨
        ∃ p, s.mem.word? (s.ip.toInt + i) = some p ∧ m = .position ∧ s.mem.word? p.toInt = none) := by
  unfold readParam
  rw [Cycle.bind_eq_error]
  simp only [rawParam_eq_ok, rawParam_eq_error]
  cases m with
  | position => simp only [memRead_eq_error]; constructor <;> aesop
  | immediate => simp [and_comm]
  | reserved k => simp [Mode.legalRead] at hm

/-- R86: when `WA(i)` has a value, and which. -/
theorem writeAddr_eq_ok {s : State} {i d : Nat} :
    writeAddr s i = .ok d ↔ d < s.mem.len.val ∧ ∃ p, s.mem.word? (s.ip.toInt + i) = some p ∧ p.toInt = d := by
  unfold writeAddr
  rw [Cycle.bind_eq_ok]
  simp only [rawParam_eq_ok, memWriteCheck_eq_ok]
  constructor
  · rintro ⟨p, hp, hd, he⟩; exact ⟨hd, p, hp, he⟩
  · rintro ⟨hd, p, hp, he⟩; exact ⟨p, hp, hd, he⟩

theorem writeAddr_eq_error {s : State} {i : Nat} {r : FaultReason} :
    writeAddr s i = .error r ↔ r = .outOfBounds ∧
      (s.mem.word? (s.ip.toInt + i) = none ∨
        ∃ p, s.mem.word? (s.ip.toInt + i) = some p ∧ s.mem.word? p.toInt = none) := by
  unfold writeAddr
  rw [Cycle.bind_eq_error]
  simp only [rawParam_eq_ok, rawParam_eq_error, memWriteCheck_eq_error]
  constructor <;> aesop

/-! ## The formats -/

theorem operandsR2W_eq_ok {m1 m2 m3 : Mode} {s : State} {a b : Word} {d : Nat} :
    operandsR2W m1 m2 m3 s = .ok (a, b, d) ↔
      m3 = .position ∧ readParam s 1 m1 = .ok a ∧ readParam s 2 m2 = .ok b ∧ writeAddr s 3 = .ok d := by
  unfold operandsR2W
  simp only [Cycle.bind_eq_ok, Cycle.pure_eq, Except.ok.injEq, modeCheck_eq_ok, List.mem_cons, List.not_mem_nil, or_false,
    forall_eq_or_imp, forall_eq, checkMode_read_eq_ok, checkMode_write_eq_ok, Prod.mk.injEq]
  constructor
  · rintro ⟨-, ⟨-, -, h3⟩, a', ha, b', hb, d', hd, rfl, rfl, rfl⟩
    exact ⟨h3, ha, hb, hd⟩
  · rintro ⟨h3, ha, hb, hd⟩
    refine ⟨(), ⟨?_, ?_, h3⟩, a, ha, b, hb, d, hd, rfl, rfl, rfl⟩
    · obtain ⟨_, _, ⟨rfl, _⟩ | ⟨rfl, _⟩⟩ := readParam_eq_ok.mp ha <;> rfl
    · obtain ⟨_, _, ⟨rfl, _⟩ | ⟨rfl, _⟩⟩ := readParam_eq_ok.mp hb <;> rfl

theorem operandsR2_eq_ok {m1 m2 : Mode} {s : State} {a target : Word} :
    operandsR2 m1 m2 s = .ok (a, target) ↔ readParam s 1 m1 = .ok a ∧ readParam s 2 m2 = .ok target := by
  unfold operandsR2
  simp only [Cycle.bind_eq_ok, Cycle.pure_eq, Except.ok.injEq, modeCheck_eq_ok, List.mem_cons, List.not_mem_nil, or_false,
    forall_eq_or_imp, forall_eq, checkMode_read_eq_ok, Prod.mk.injEq]
  constructor
  · rintro ⟨-, -, a', ha, b', hb, rfl, rfl⟩
    exact ⟨ha, hb⟩
  · rintro ⟨ha, hb⟩
    refine ⟨(), ⟨?_, ?_⟩, a, ha, target, hb, rfl, rfl⟩
    · obtain ⟨_, _, ⟨rfl, _⟩ | ⟨rfl, _⟩⟩ := readParam_eq_ok.mp ha <;> rfl
    · obtain ⟨_, _, ⟨rfl, _⟩ | ⟨rfl, _⟩⟩ := readParam_eq_ok.mp hb <;> rfl

theorem operandsR1_eq_ok {m1 : Mode} {s : State} {a : Word} :
    operandsR1 m1 s = .ok a ↔ readParam s 1 m1 = .ok a := by
  unfold operandsR1
  simp only [Cycle.bind_eq_ok, modeCheck_eq_ok, List.mem_cons, List.not_mem_nil, or_false, forall_eq, checkMode_read_eq_ok]
  constructor
  · rintro ⟨-, -, ha⟩; exact ha
  · intro ha
    refine ⟨(), ?_, ha⟩
    obtain ⟨_, _, ⟨rfl, _⟩ | ⟨rfl, _⟩⟩ := readParam_eq_ok.mp ha <;> rfl

theorem operandsW1_eq_ok {m1 : Mode} {s : State} {d : Nat} :
    operandsW1 m1 s = .ok d ↔ m1 = .position ∧ writeAddr s 1 = .ok d := by
  unfold operandsW1
  simp only [Cycle.bind_eq_ok, modeCheck_eq_ok, List.mem_cons, List.not_mem_nil, or_false, forall_eq, checkMode_write_eq_ok]
  constructor
  · rintro ⟨-, h, hd⟩; exact ⟨h, hd⟩
  · rintro ⟨h, hd⟩; exact ⟨(), h, hd⟩

/-! ## The IP sequencer and the ALU -/

/-- R23, R90: where parameter `i` lies inside memory, IP advanced by up to 4 words does not wrap. -/
theorem advance_exact {s : State} {i n : Nat} {p : Word} (h : s.mem.word? (s.ip.toInt + i) = some p) (hn : n ≤ i + 1) (hn4 : n ≤ 4) :
    (s.ip + BitVec.ofNat 64 n).toInt = s.ip.toInt + n := by
  have hv := Memory.word?_some_valid h
  have hlen := s.mem.len.isLt
  have hlo := BitVec.le_toInt s.ip
  simp only [Config.maxMemLen] at hlen
  rw [BitVec.toInt_add, BitVec.toInt_ofNat']
  have hn' : ((n : Int)).bmod (2 ^ 64) = n := by
    rw [Int.bmod_eq_of_le] <;> omega
  rw [hn', Int.bmod_eq_of_le] <;> omega

theorem fits_iff {v : Int} : fits v = true ↔ Config.wMin ≤ v ∧ v ≤ Config.wMax := by
  simp [fits]

theorem toInt_ofInt_of_fits {v : Int} (h : fits v = true) : (Word.ofInt v).toInt = v := by
  rw [fits_iff] at h
  simp only [Config.wMin, Config.wMax] at h
  unfold Word.ofInt
  rw [BitVec.toInt_ofInt, Int.bmod_eq_of_le] <;> omega

theorem fits_toInt (w : Word) : fits w.toInt = true := by
  have h1 := BitVec.le_toInt w
  have h2 := BitVec.toInt_lt (x := w)
  rw [fits_iff]
  simp only [Config.wMin, Config.wMax]
  omega

theorem ofInt_toInt (w : Word) : Word.ofInt w.toInt = w := BitVec.ofInt_toInt

/-- The sequencer's addition is the integer one wherever the sum fits; see `advance_exact`. -/
theorem advance_eq_ofInt (w : Word) (n : Nat) : w + BitVec.ofNat 64 n = Word.ofInt (w.toInt + n) := by
  unfold Word.ofInt
  rw [BitVec.ofInt_add, BitVec.ofInt_toInt, BitVec.ofInt_natCast]

/-- R102: the exact result or `Overflow`. -/
theorem exactOrOverflow_eq_ok {v : Int} {r : Word} :
    exactOrOverflow v = .ok r ↔ fits v = true ∧ r = Word.ofInt v := by
  unfold exactOrOverflow
  cases fits v <;> simp [eq_comm]

theorem exactOrOverflow_eq_error {v : Int} {r : FaultReason} :
    exactOrOverflow v = .error r ↔ fits v = false ∧ r = .overflow := by
  unfold exactOrOverflow
  cases fits v <;> simp [eq_comm]

end Sys2Proof.Machine
end

