-- ==== Sys2Proof/Laws/Exec.lean ====
section
/-!
SUPPORT. The inversion lemmas of a cycle: what FETCH and DECODE, each meaning and a step can answer, each said once.
-/

namespace Sys2Proof.Machine

/-! ## Fetch, decode and step -/

theorem fetchWord_eq_ok {s : State} {w : Word} : fetchWord s = .ok w ↔ s.mem.word? s.ip.toInt = some w := memRead_eq_ok

theorem fetchWord_eq_error {s : State} {r : FaultReason} :
    fetchWord s = .error r ↔ s.mem.word? s.ip.toInt = none ∧ r = .outOfBounds := memRead_eq_error

theorem decodeWord_eq_ok {w : Word} {i : Instr} : decodeWord w = .ok i ↔ decode w = .ok i := by
  unfold decodeWord; cases decode w <;> simp

/-- R153: a word that selects no instruction gives `UnsupportedOpcode`, whatever the reason. -/
theorem decodeWord_eq_error {w : Word} {r : FaultReason} :
    decodeWord w = .error r ↔ (∃ e, decode w = .error e) ∧ r = .unsupportedOpcode := by
  unfold decodeWord
  cases decode w with
  | ok i => simp
  | error e => cases e <;> simp [rejectFault, eq_comm]

theorem fetchInstr_eq_ok {s : State} {i : Instr} :
    fetchInstr s = .ok i ↔ ∃ w, s.mem.word? s.ip.toInt = some w ∧ decode w = .ok i := by
  unfold fetchInstr
  rw [Cycle.bind_eq_ok]
  simp only [fetchWord_eq_ok, decodeWord_eq_ok]

theorem fetchInstr_eq_error {s : State} {r : FaultReason} :
    fetchInstr s = .error r ↔ (s.mem.word? s.ip.toInt = none ∧ r = .outOfBounds) ∨
      ∃ w, s.mem.word? s.ip.toInt = some w ∧ (∃ e, decode w = .error e) ∧ r = .unsupportedOpcode := by
  unfold fetchInstr
  rw [Cycle.bind_eq_error]
  simp only [fetchWord_eq_ok, fetchWord_eq_error, decodeWord_eq_error]

/-- R80: an enabled cycle. -/
theorem step_running {s : State} (h : s.engine = .running) :
    step s = match fetchInstr s with
      | .ok i => exec i s
      | .error r => .next (s.takeFault r) := by
  simp only [step, h]
  cases fetchInstr s <;> rfl

/-- R32: a terminal state. -/
theorem step_terminal {s : State} (h : s.engine ≠ .running) : step s = .next s := by
  unfold step
  cases he : s.engine with
  | running => exact absurd he h
  | halted => rfl
  | faulted => rfl

/-! ## The faults before EXECUTE -/

/-- R71, R85, R86: the faults that MODECHECK and OPERANDS raise for the demanded parameters `ps`: that of the mode check,
or `OutOfBounds`. -/
def OperandFault (ps : List (ParamKind × Mode)) (r : FaultReason) : Prop := modeCheck ps = .error r ∨ r = .outOfBounds

theorem readParam_fault {s : State} {i : Nat} {m : Mode} {r : FaultReason} (hm : checkMode .read m = .ok ())
    (h : readParam s i m = .error r) : r = .outOfBounds :=
  ((readParam_eq_error (checkMode_read_eq_ok.mp hm)).mp h).1

theorem writeAddr_fault {s : State} {i : Nat} {r : FaultReason} (h : writeAddr s i = .error r) : r = .outOfBounds :=
  (writeAddr_eq_error.mp h).1

theorem operandsR2W_fault {m1 m2 m3 : Mode} {s : State} {r : FaultReason} (h : operandsR2W m1 m2 m3 s = .error r) :
    OperandFault [(.read, m1), (.read, m2), (.write, m3)] r := by
  unfold operandsR2W at h
  rcases Cycle.bind_eq_error.mp h with h | ⟨u, hm, h⟩
  · exact .inl h
  · have hm := modeCheck_eq_ok.mp hm
    simp only [Cycle.bind_eq_error, Cycle.pure_eq, reduceCtorEq, and_false, exists_false, or_false] at h
    rcases h with h | ⟨-, -, h | ⟨-, -, h⟩⟩
    · exact .inr (readParam_fault (hm (.read, m1) (by simp)) h)
    · exact .inr (readParam_fault (hm (.read, m2) (by simp)) h)
    · exact .inr (writeAddr_fault h)

theorem operandsR2_fault {m1 m2 : Mode} {s : State} {r : FaultReason} (h : operandsR2 m1 m2 s = .error r) :
    OperandFault [(.read, m1), (.read, m2)] r := by
  unfold operandsR2 at h
  rcases Cycle.bind_eq_error.mp h with h | ⟨u, hm, h⟩
  · exact .inl h
  · have hm := modeCheck_eq_ok.mp hm
    simp only [Cycle.bind_eq_error, Cycle.pure_eq, reduceCtorEq, and_false, exists_false, or_false] at h
    rcases h with h | ⟨-, -, h⟩
    · exact .inr (readParam_fault (hm (.read, m1) (by simp)) h)
    · exact .inr (readParam_fault (hm (.read, m2) (by simp)) h)

theorem operandsR1_fault {m1 : Mode} {s : State} {r : FaultReason} (h : operandsR1 m1 s = .error r) :
    OperandFault [(.read, m1)] r := by
  unfold operandsR1 at h
  rcases Cycle.bind_eq_error.mp h with h | ⟨u, hm, h⟩
  · exact .inl h
  · exact .inr (readParam_fault (modeCheck_eq_ok.mp hm (.read, m1) (by simp)) h)

theorem operandsW1_fault {m1 : Mode} {s : State} {r : FaultReason} (h : operandsW1 m1 s = .error r) :
    OperandFault [(.write, m1)] r := by
  unfold operandsW1 at h
  rcases Cycle.bind_eq_error.mp h with h | ⟨u, -, h⟩
  · exact .inl h
  · exact .inr (writeAddr_fault h)

/-! ## The meanings -/

section Meanings

variable {s t : State} {m1 m2 m3 : Mode}

/-- R100: what `add` can do. -/
theorem execAdd_cases (h : execAdd m1 m2 m3 s = .next t) :
    (∃ a b d, operandsR2W m1 m2 m3 s = .ok (a, b, d) ∧ fits (a.toInt + b.toInt) = true ∧
      t = (s.store d (Word.ofInt (a.toInt + b.toInt))).advance 4) ∨
    ∃ r, (OperandFault [(.read, m1), (.read, m2), (.write, m3)] r ∨ r = .overflow) ∧ t = s.takeFault r := by
  unfold execAdd at h
  rcases endCycle_cases h with h | ⟨r, he, rfl⟩
  · obtain ⟨⟨a, b, d⟩, ho, h⟩ := Cycle.bind_eq_ok.mp h
    obtain ⟨r, hr, h⟩ := Cycle.bind_eq_ok.mp h
    obtain ⟨hf, rfl⟩ := exactOrOverflow_eq_ok.mp hr
    simp only [Cycle.pure_eq, Except.ok.injEq] at h
    exact .inl ⟨a, b, d, ho, hf, h.symm⟩
  · right
    refine ⟨r, ?_, rfl⟩
    rcases Cycle.bind_eq_error.mp he with h | ⟨⟨a, b, d⟩, -, h⟩
    · exact .inl (operandsR2W_fault h)
    · rcases Cycle.bind_eq_error.mp h with h | ⟨_, -, h⟩
      · exact .inr (exactOrOverflow_eq_error.mp h).2
      · simp at h

/-- R101: what `mul` can do. -/
theorem execMul_cases (h : execMul m1 m2 m3 s = .next t) :
    (∃ a b d, operandsR2W m1 m2 m3 s = .ok (a, b, d) ∧ fits (a.toInt * b.toInt) = true ∧
      t = (s.store d (Word.ofInt (a.toInt * b.toInt))).advance 4) ∨
    ∃ r, (OperandFault [(.read, m1), (.read, m2), (.write, m3)] r ∨ r = .overflow) ∧ t = s.takeFault r := by
  unfold execMul at h
  rcases endCycle_cases h with h | ⟨r, he, rfl⟩
  · obtain ⟨⟨a, b, d⟩, ho, h⟩ := Cycle.bind_eq_ok.mp h
    obtain ⟨r, hr, h⟩ := Cycle.bind_eq_ok.mp h
    obtain ⟨hf, rfl⟩ := exactOrOverflow_eq_ok.mp hr
    simp only [Cycle.pure_eq, Except.ok.injEq] at h
    exact .inl ⟨a, b, d, ho, hf, h.symm⟩
  · right
    refine ⟨r, ?_, rfl⟩
    rcases Cycle.bind_eq_error.mp he with h | ⟨⟨a, b, d⟩, -, h⟩
    · exact .inl (operandsR2W_fault h)
    · rcases Cycle.bind_eq_error.mp h with h | ⟨_, -, h⟩
      · exact .inr (exactOrOverflow_eq_error.mp h).2
      · simp at h

/-- R110: what `input` can do. -/
theorem execInput_cases (h : execInput m1 s = .next t) :
    (∃ d x rest, operandsW1 m1 s = .ok d ∧ s.inQ = x :: rest ∧
      t = (({ s with inQ := rest } : State).store d x).advance 2) ∨
    ∃ r, (OperandFault [(.write, m1)] r ∨ r = .inputExhausted) ∧ t = s.takeFault r := by
  unfold execInput at h
  rcases endCycle_cases h with h | ⟨r, he, rfl⟩
  · obtain ⟨d, ho, h⟩ := Cycle.bind_eq_ok.mp h
    obtain ⟨⟨x, u⟩, hr, h⟩ := Cycle.bind_eq_ok.mp h
    obtain ⟨hq, hu⟩ := nextInput_eq_ok.mp hr
    simp only [Cycle.pure_eq, Except.ok.injEq] at h
    exact .inl ⟨d, x, u.inQ, ho, hq, by rw [← hu]; exact h.symm⟩
  · right
    refine ⟨r, ?_, rfl⟩
    rcases Cycle.bind_eq_error.mp he with h | ⟨d, -, h⟩
    · exact .inl (operandsW1_fault h)
    · rcases Cycle.bind_eq_error.mp h with h | ⟨_, -, h⟩
      · exact .inr (nextInput_eq_error.mp h).2
      · simp at h

/-- R111: what `output` can do. -/
theorem execOutput_cases (h : execOutput m1 s = .next t) :
    (∃ a, operandsR1 m1 s = .ok a ∧ t = (s.emit a).advance 2) ∨ ∃ r, OperandFault [(.read, m1)] r ∧ t = s.takeFault r := by
  unfold execOutput at h
  rcases endCycle_cases h with h | ⟨r, he, rfl⟩
  · obtain ⟨a, ho, h⟩ := Cycle.bind_eq_ok.mp h
    simp only [Cycle.pure_eq, Except.ok.injEq] at h
    exact .inl ⟨a, ho, h.symm⟩
  · right
    refine ⟨r, ?_, rfl⟩
    rcases Cycle.bind_eq_error.mp he with h | ⟨_, -, h⟩
    · exact operandsR1_fault h
    · simp at h

/-- R120: what `jnz` can do. -/
theorem execJnz_cases (h : execJnz m1 m2 s = .next t) :
    (∃ a target, operandsR2 m1 m2 s = .ok (a, target) ∧ t = if isZero a then s.advance 3 else s.jump target) ∨
    ∃ r, OperandFault [(.read, m1), (.read, m2)] r ∧ t = s.takeFault r := by
  unfold execJnz at h
  rcases endCycle_cases h with h | ⟨r, he, rfl⟩
  · obtain ⟨⟨a, target⟩, ho, h⟩ := Cycle.bind_eq_ok.mp h
    simp only [Cycle.pure_eq, Except.ok.injEq] at h
    exact .inl ⟨a, target, ho, h.symm⟩
  · right
    refine ⟨r, ?_, rfl⟩
    rcases Cycle.bind_eq_error.mp he with h | ⟨⟨_, _⟩, -, h⟩
    · exact operandsR2_fault h
    · simp at h

/-- R121: what `jz` can do. -/
theorem execJz_cases (h : execJz m1 m2 s = .next t) :
    (∃ a target, operandsR2 m1 m2 s = .ok (a, target) ∧ t = if isZero a then s.jump target else s.advance 3) ∨
    ∃ r, OperandFault [(.read, m1), (.read, m2)] r ∧ t = s.takeFault r := by
  unfold execJz at h
  rcases endCycle_cases h with h | ⟨r, he, rfl⟩
  · obtain ⟨⟨a, target⟩, ho, h⟩ := Cycle.bind_eq_ok.mp h
    simp only [Cycle.pure_eq, Except.ok.injEq] at h
    exact .inl ⟨a, target, ho, h.symm⟩
  · right
    refine ⟨r, ?_, rfl⟩
    rcases Cycle.bind_eq_error.mp he with h | ⟨⟨_, _⟩, -, h⟩
    · exact operandsR2_fault h
    · simp at h

/-- R130: what `lt` can do. -/
theorem execLt_cases (h : execLt m1 m2 m3 s = .next t) :
    (∃ a b d, operandsR2W m1 m2 m3 s = .ok (a, b, d) ∧ t = (s.store d (aluLt a b)).advance 4) ∨
    ∃ r, OperandFault [(.read, m1), (.read, m2), (.write, m3)] r ∧ t = s.takeFault r := by
  unfold execLt at h
  rcases endCycle_cases h with h | ⟨r, he, rfl⟩
  · obtain ⟨⟨a, b, d⟩, ho, h⟩ := Cycle.bind_eq_ok.mp h
    simp only [Cycle.pure_eq, Except.ok.injEq] at h
    exact .inl ⟨a, b, d, ho, h.symm⟩
  · right
    refine ⟨r, ?_, rfl⟩
    rcases Cycle.bind_eq_error.mp he with h | ⟨⟨_, _, _⟩, -, h⟩
    · exact operandsR2W_fault h
    · simp at h

/-- R131: what `eq` can do. -/
theorem execEq_cases (h : execEq m1 m2 m3 s = .next t) :
    (∃ a b d, operandsR2W m1 m2 m3 s = .ok (a, b, d) ∧ t = (s.store d (aluEq a b)).advance 4) ∨
    ∃ r, OperandFault [(.read, m1), (.read, m2), (.write, m3)] r ∧ t = s.takeFault r := by
  unfold execEq at h
  rcases endCycle_cases h with h | ⟨r, he, rfl⟩
  · obtain ⟨⟨a, b, d⟩, ho, h⟩ := Cycle.bind_eq_ok.mp h
    simp only [Cycle.pure_eq, Except.ok.injEq] at h
    exact .inl ⟨a, b, d, ho, h.symm⟩
  · right
    refine ⟨r, ?_, rfl⟩
    rcases Cycle.bind_eq_error.mp he with h | ⟨⟨_, _, _⟩, -, h⟩
    · exact operandsR2W_fault h
    · simp at h

end Meanings

/-! ## Every instruction, every step -/

/-- R80: the rest of a cycle always has a next state. -/
theorem exec_next (i : Instr) (s : State) : ∃ t, exec i s = .next t := by
  cases i with
  | halt => exact ⟨_, rfl⟩
  | _ => exact endCycle_next _ _

/-- R80: what a step of a `Running` state can do. -/
theorem step_cases {s t : State} (hr : s.engine = .running) (h : step s = .next t) :
    (∃ i, fetchInstr s = .ok i ∧ exec i s = .next t) ∨ ∃ r, t = s.takeFault r ∧ fetchInstr s = .error r := by
  rw [step_running hr] at h
  cases hf : fetchInstr s with
  | ok i => rw [hf] at h; exact .inl ⟨i, rfl, h⟩
  | error r => rw [hf] at h; simp at h; exact .inr ⟨r, h.symm, rfl⟩

/-- R89: what the rest of a cycle can do, whatever the instruction: enter a fault, or commit at most one write, one pop and
one append, and either keep `STATE` and `FAULT` or be `halt`. -/
theorem exec_cases {i : Instr} {s t : State} (h : exec i s = .next t) :
    (∃ r, t = s.takeFault r) ∨
    ((t.mem = s.mem ∨ ∃ d v, d < s.mem.len.val ∧ t.mem = s.mem.set d v) ∧
      (t.inQ = s.inQ ∨ ∃ x, s.inQ = x :: t.inQ) ∧
      (t.outQ = s.outQ ∨ ∃ v, t.outQ = s.outQ ++ [v]) ∧
      ((t.engine = s.engine ∧ t.faultReg = s.faultReg ∧ i ≠ .halt) ∨ (i = .halt ∧ t = s.stopHalted))) := by
  cases i with
  | add m1 m2 m3 =>
    rcases execAdd_cases h with ⟨a, b, d, ho, hf, rfl⟩ | ⟨r, -, h⟩
    · obtain ⟨_, _, _, hw⟩ := operandsR2W_eq_ok.mp ho
      exact .inr ⟨.inr ⟨d, _, (writeAddr_eq_ok.mp hw).1, rfl⟩, .inl rfl, .inl rfl, .inl ⟨rfl, rfl, by simp⟩⟩
    · exact .inl ⟨r, h⟩
  | mul m1 m2 m3 =>
    rcases execMul_cases h with ⟨a, b, d, ho, hf, rfl⟩ | ⟨r, -, h⟩
    · obtain ⟨_, _, _, hw⟩ := operandsR2W_eq_ok.mp ho
      exact .inr ⟨.inr ⟨d, _, (writeAddr_eq_ok.mp hw).1, rfl⟩, .inl rfl, .inl rfl, .inl ⟨rfl, rfl, by simp⟩⟩
    · exact .inl ⟨r, h⟩
  | lt m1 m2 m3 =>
    rcases execLt_cases h with ⟨a, b, d, ho, rfl⟩ | ⟨r, -, h⟩
    · obtain ⟨_, _, _, hw⟩ := operandsR2W_eq_ok.mp ho
      exact .inr ⟨.inr ⟨d, _, (writeAddr_eq_ok.mp hw).1, rfl⟩, .inl rfl, .inl rfl, .inl ⟨rfl, rfl, by simp⟩⟩
    · exact .inl ⟨r, h⟩
  | eq m1 m2 m3 =>
    rcases execEq_cases h with ⟨a, b, d, ho, rfl⟩ | ⟨r, -, h⟩
    · obtain ⟨_, _, _, hw⟩ := operandsR2W_eq_ok.mp ho
      exact .inr ⟨.inr ⟨d, _, (writeAddr_eq_ok.mp hw).1, rfl⟩, .inl rfl, .inl rfl, .inl ⟨rfl, rfl, by simp⟩⟩
    · exact .inl ⟨r, h⟩
  | input m1 =>
    rcases execInput_cases h with ⟨d, x, rest, ho, hq, rfl⟩ | ⟨r, -, h⟩
    · obtain ⟨_, hw⟩ := operandsW1_eq_ok.mp ho
      exact .inr ⟨.inr ⟨d, _, (writeAddr_eq_ok.mp hw).1, rfl⟩, .inr ⟨x, hq⟩, .inl rfl, .inl ⟨rfl, rfl, by simp⟩⟩
    · exact .inl ⟨r, h⟩
  | output m1 =>
    rcases execOutput_cases h with ⟨a, ho, rfl⟩ | ⟨r, -, h⟩
    · exact .inr ⟨.inl rfl, .inl rfl, .inr ⟨a, rfl⟩, .inl ⟨rfl, rfl, by simp⟩⟩
    · exact .inl ⟨r, h⟩
  | jnz m1 m2 =>
    rcases execJnz_cases h with ⟨a, g, ho, rfl⟩ | ⟨r, -, h⟩
    · cases isZero a <;> exact .inr ⟨.inl rfl, .inl rfl, .inl rfl, .inl ⟨rfl, rfl, by simp⟩⟩
    · exact .inl ⟨r, h⟩
  | jz m1 m2 =>
    rcases execJz_cases h with ⟨a, g, ho, rfl⟩ | ⟨r, -, h⟩
    · cases isZero a <;> exact .inr ⟨.inl rfl, .inl rfl, .inl rfl, .inl ⟨rfl, rfl, by simp⟩⟩
    · exact .inl ⟨r, h⟩
  | halt =>
    have : t = s.stopHalted := by simpa [exec, execHalt, eq_comm] using h
    subst this
    exact .inr ⟨.inl rfl, .inl rfl, .inl rfl, .inr ⟨rfl, rfl⟩⟩

/-- Every step has a next state. -/
theorem step_next (s : State) : ∃ t, step s = .next t := by
  by_cases hr : s.engine = .running
  · rw [step_running hr]
    cases fetchInstr s with
    | ok i => exact exec_next i s
    | error r => exact ⟨_, rfl⟩
  · exact ⟨s, step_terminal hr⟩

/-! ## Runs -/

@[simp] theorem core_run_zero (s : State) : core.run 0 s = .next s := rfl

/-- One more step at the beginning of a run. -/
theorem core_run_succ {s u : State} (h : step s = .next u) (k : Nat) : core.run (k + 1) s = core.run k u := by
  have h' : core.step s = .next u := h
  simp only [Host.Core.run, h']

/-- A run of no steps ends where it starts. -/
theorem core_run_zero_eq {s t : State} : core.run 0 s = .next t ↔ s = t := by
  change Host.Outcome.next s = .next t ↔ s = t
  exact ⟨fun h => by injection h, fun h => by rw [h]⟩

/-- Every run of `k` steps has a last state. -/
theorem core_run_next (k : Nat) (s : State) : ∃ t : State, core.run k s = .next t := by
  induction k generalizing s with
  | zero => exact ⟨s, rfl⟩
  | succ k ih =>
    obtain ⟨u, hu⟩ := step_next s
    rw [core_run_succ hu]
    exact ih u

/-- A run of `j + k` steps is a run of `k` steps from where the first `j` lead. -/
theorem core_run_add {s u : State} (j k : Nat) (h : core.run j s = .next u) : core.run (j + k) s = core.run k u := by
  induction j generalizing s with
  | zero => rw [core_run_zero_eq.mp h, Nat.zero_add]
  | succ j ih =>
    obtain ⟨v, hv⟩ := step_next s
    rw [core_run_succ hv] at h
    rw [Nat.succ_add_eq_add_succ, show j + (k + 1) = j + k + 1 by omega, core_run_succ hv]
    exact ih h

end Sys2Proof.Machine
end

