-- ==== Sys2Proof/Laws/Launch.lean ====
section
/-!
SUPPORT. The launch: the cells of an image are canonical and hold its words.
-/

namespace Sys2Proof.Machine

theorem imageCells_canonical (k : Nat) (image : List Word) :
    canonicalFrom k (k + image.length) (imageCells k image) = true := by
  induction image generalizing k with
  | nil => rfl
  | cons v rest ih =>
    have h := ih (k + 1)
    have hlen : k + 1 + rest.length = k + (v :: rest).length := by simp only [List.length_cons]; omega
    rw [hlen] at h
    unfold imageCells
    by_cases hv : v = unlistedWord
    · rw [if_pos hv]; exact canonicalFrom_weaken (by omega) h
    · rw [if_neg hv, canonicalFrom_cons]
      exact ⟨Nat.le_refl _, by simp, hv, h⟩

theorem lookupCell_imageCells (k : Nat) (image : List Word) (a : Nat) :
    lookupCell (imageCells k image) (k + a) = (image[a]?).getD unlistedWord := by
  induction image generalizing k a with
  | nil => simp [imageCells, lookupCell]
  | cons v rest ih =>
    unfold imageCells
    cases a with
    | zero =>
      by_cases hv : v = unlistedWord
      · rw [if_pos hv, lookupCell_below (imageCells_canonical (k + 1) rest) (by omega)]; simp [hv]
      · rw [if_neg hv]; simp [lookupCell]
    | succ a =>
      have h := ih (k + 1) a
      rw [show k + 1 + a = k + (a + 1) by omega] at h
      by_cases hv : v = unlistedWord
      · rw [if_pos hv, h]; simp
      · rw [if_neg hv, lookupCell, if_neg (by omega), h]; simp

theorem Memory.ofImage_eq_some {image : List Word} {m : Memory} :
    Memory.ofImage image = some m ↔ m.len.val = image.length ∧ m.cells = imageCells 0 image := by
  unfold Memory.ofImage
  constructor
  · intro h
    split at h
    · simp only [Option.some.injEq] at h; subst h; exact ⟨rfl, rfl⟩
    · simp at h
  · rintro ⟨h1, h2⟩
    have h3 := m.len.isLt
    rw [h1] at h3
    rw [dif_pos h3]
    cases m
    simp only at h1 h2
    simp only [Option.some.injEq, Memory.mk.injEq]
    exact ⟨Fin.ext h1.symm, h2.symm⟩

theorem Memory.ofImage_wf {image : List Word} {m : Memory} (h : Memory.ofImage image = some m) : m.wf = true := by
  obtain ⟨h1, h2⟩ := Memory.ofImage_eq_some.mp h
  unfold Memory.wf
  rw [h1, h2]
  simpa using imageCells_canonical 0 image

/-- R180: what a launch answers. -/
theorem launch_eq_some {image : List Word} {startIp : Word} {inputs : List Word} {s : State} :
    launch image startIp inputs = some s ↔ 0 ≤ startIp.toInt ∧ ∃ m, Memory.ofImage image = some m ∧
      s = { mem := m, ip := startIp, engine := .running, faultReg := none, inQ := inputs, outQ := [] } := by
  unfold launch
  by_cases h : 0 ≤ startIp.toInt
  · rw [if_pos h]
    cases Memory.ofImage image <;> simp [h, eq_comm]
  · rw [if_neg h]; simp [h]

end Sys2Proof.Machine
end

