-- ==== Sys2Proof/Laws/PerInstr.lean ====
section
/-!
SUPPORT. Statements made of every instruction as syntax, one lemma per constructor.
-/

/-- R73: the canonical instruction word of `i` is a word of at most five digits, read as the number
`op + 100*m1 + 1000*m2 + 10000*m3`. -/
def Sys2Proof.Laws.CanonicalWord.Statement (i : Sys2Proof.Instr) : Prop :=
  (Sys2Proof.encode i).toInt = ((i.opcode + Sys2Proof.modeDigits 2 i.params : Nat) : Int) ∧
    i.opcode + Sys2Proof.modeDigits 2 i.params < 100000

namespace Sys2Proof.Laws.CanonicalWord

/-- A number of at most five digits is its own value as a word. -/
theorem statement_of_lt {i : Instr} (h : i.opcode + modeDigits 2 i.params < 100000) : Statement i := by
  refine ⟨?_, h⟩
  unfold encode
  rw [BitVec.toInt_ofNat', Int.bmod_eq_of_le] <;> omega

theorem add (a b dst : Mode) : Statement (.add a b dst) := by
  have ha := a.toDigit_lt; have hb := b.toDigit_lt; have hd := dst.toDigit_lt
  exact statement_of_lt (by simp only [Instr.opcode, Instr.params, modeDigits]; omega)

theorem mul (a b dst : Mode) : Statement (.mul a b dst) := by
  have ha := a.toDigit_lt; have hb := b.toDigit_lt; have hd := dst.toDigit_lt
  exact statement_of_lt (by simp only [Instr.opcode, Instr.params, modeDigits]; omega)

theorem input (dst : Mode) : Statement (.input dst) := by
  have hd := dst.toDigit_lt
  exact statement_of_lt (by simp only [Instr.opcode, Instr.params, modeDigits]; omega)

theorem output (a : Mode) : Statement (.output a) := by
  have ha := a.toDigit_lt
  exact statement_of_lt (by simp only [Instr.opcode, Instr.params, modeDigits]; omega)

theorem jnz (a target : Mode) : Statement (.jnz a target) := by
  have ha := a.toDigit_lt; have ht := target.toDigit_lt
  exact statement_of_lt (by simp only [Instr.opcode, Instr.params, modeDigits]; omega)

theorem jz (a target : Mode) : Statement (.jz a target) := by
  have ha := a.toDigit_lt; have ht := target.toDigit_lt
  exact statement_of_lt (by simp only [Instr.opcode, Instr.params, modeDigits]; omega)

theorem lt (a b dst : Mode) : Statement (.lt a b dst) := by
  have ha := a.toDigit_lt; have hb := b.toDigit_lt; have hd := dst.toDigit_lt
  exact statement_of_lt (by simp only [Instr.opcode, Instr.params, modeDigits]; omega)

theorem eq (a b dst : Mode) : Statement (.eq a b dst) := by
  have ha := a.toDigit_lt; have hb := b.toDigit_lt; have hd := dst.toDigit_lt
  exact statement_of_lt (by simp only [Instr.opcode, Instr.params, modeDigits]; omega)

theorem halt : Statement .halt := statement_of_lt (by decide)

end Sys2Proof.Laws.CanonicalWord
end

