-- ==== Sys2Proof/Laws/Place.lean ====
section
/-!
SUPPORT. The placing of one instruction: the memory stays canonical, and the first word is the one fetched next.
-/

namespace Sys2Proof.Machine

theorem canonicalFrom_longer {lo len len' : Nat} {l : List (Nat × Word)} (hlen : len ≤ len')
    (h : canonicalFrom lo len l = true) : canonicalFrom lo len' l = true := by
  induction l generalizing lo with
  | nil => rfl
  | cons p rest ih =>
    obtain ⟨k, v⟩ := p
    rw [canonicalFrom_cons] at h ⊢
    exact ⟨h.1, by omega, h.2.2.1, ih h.2.2.2⟩

theorem Memory.growTo_wf {m : Memory} {n : Fin (Config.maxMemLen + 1)} (h : m.wf = true) : (m.growTo n).wf = true := by
  unfold Memory.growTo
  split
  · exact canonicalFrom_longer (by simp only; omega) h
  · exact h

theorem Memory.le_growTo_len (m : Memory) (n : Fin (Config.maxMemLen + 1)) : n.val ≤ (m.growTo n).len.val := by
  unfold Memory.growTo
  split
  · exact Nat.le_refl _
  · omega

/-- The last three words of a placed instruction do not disturb the first. -/
theorem Memory.placeWords_spec {m : Memory} {site : Fin (Config.maxMemLen - 3)} {bits : Nat} (h : m.wf = true) :
    (m.placeWords site bits).wf = true ∧
      (m.placeWords site bits).word? site.val = some (BitVec.ofNat 64 bits) := by
  unfold Memory.placeWords
  generalize hn : (⟨site.val + 4, _⟩ : Fin (Config.maxMemLen + 1)) = n
  have hval : n.val = site.val + 4 := by rw [← hn]
  have hlen := m.le_growTo_len n
  have h0 := Memory.set_wf (a := site.val) (v := tableWord bits 0) (Memory.growTo_wf (n := n) h) (by omega)
  have h1 := Memory.set_wf (a := site.val + 1) (v := tableWord bits 1) h0 (by simp only [Memory.set_len]; omega)
  have h2 := Memory.set_wf (a := site.val + 2) (v := tableWord bits 2) h1 (by simp only [Memory.set_len]; omega)
  refine ⟨Memory.set_wf h2 (by simp only [Memory.set_len]; omega), ?_⟩
  rw [Memory.word?_set h2 (by simp only [Memory.set_len]; omega), if_neg (by omega),
    Memory.word?_set h1 (by simp only [Memory.set_len]; omega), if_neg (by omega),
    Memory.word?_set h0 (by simp only [Memory.set_len]; omega), if_neg (by omega),
    Memory.word?_set (Memory.growTo_wf h) (by omega), if_pos rfl]
  simp [tableWord]

/-- The address of a placed instruction, read back from IP. -/
theorem placeSite_toInt (s : State) : (BitVec.ofNat 64 (placeSite s).val).toInt = (placeSite s).val := by
  have h := (placeSite s).isLt
  simp only [Config.maxMemLen] at h
  rw [BitVec.toInt_ofNat', Int.bmod_eq_of_le] <;> omega

end Sys2Proof.Machine
end

