-- ==== Sys2Proof/Tests/Slice0.lean ====
section
/-!
SUPPORT. The model's own tests. Every expected result is the spec's: a worked example, a row of a table or a vector of
`95_test_vectors.md`, named beside it. The second half shows, for each obligation with hypotheses, concrete states and
operands that meet them.
-/

namespace Sys2Proof.Tests

open Sys2Proof.Machine

/-! ## Helpers -/

/-- A word by its integer. -/
def word (v : Int) : Word := Word.ofInt v

/-- The launch state of an image, a start address and inputs. -/
def load (image : List Int) (startIp : Int := 0) (inputs : List Int := []) : State :=
  (launch (image.map word) (word startIp) (inputs.map word)).getD State.reset

/-- The state of an outcome. -/
def nextOf (o : Host.Outcome State Fault Refusal) : Option State :=
  match o with
  | .next t => some t
  | .fault _ => none
  | .refused _ => none

theorem eq_next {o : Host.Outcome State Fault Refusal} {t : State} (h : nextOf o = some t) : o = .next t := by
  cases o <;> simp_all [nextOf]

/-- The state after one step. -/
def after (s : State) : State := (nextOf (step s)).getD s

theorem step_after (s : State) : step s = .next (after s) := by
  obtain ⟨t, h⟩ := step_next s
  unfold after
  rw [h]
  rfl

/-- The integers of a state's memory, address 0 first. -/
def ints (s : State) : List Int := s.mem.words.map BitVec.toInt

/-- The reason of the fault that the first step of an image raises, if it raises one. -/
def fault? (image : List Int) (startIp : Int := 0) (inputs : List Int := []) : Option FaultReason :=
  (after (load image startIp inputs)).faultReg

/-- What the decoder selects. -/
def decoded (w : Int) : Option Instr :=
  match decode (word w) with
  | .ok i => some i
  | .error _ => none

/-! ## WellFormed: one ill-formed term for each check (R64, R72) -/

theorem test_wf_refuses_reserved_read : (Instr.add (.reserved 0) .position .position).wf = false := by decide
theorem test_wf_refuses_reserved_second_read : (Instr.mul .position (.reserved 7) .position).wf = false := by decide
theorem test_wf_refuses_immediate_write : (Instr.lt .position .position .immediate).wf = false := by decide
theorem test_wf_refuses_reserved_write : (Instr.eq .position .position (.reserved 0)).wf = false := by decide
theorem test_wf_refuses_immediate_input : (Instr.input .immediate).wf = false := by decide
theorem test_wf_refuses_reserved_output : (Instr.output (.reserved 0)).wf = false := by decide
theorem test_wf_refuses_reserved_jump :
    (Instr.jnz (.reserved 0) .position).wf = false ∧ (Instr.jz .position (.reserved 0)).wf = false := by decide
theorem test_wf_takes_immediate_reads :
    (Instr.add .immediate .immediate .position).wf = true ∧ (Instr.jz .immediate .immediate).wf = true ∧
      (Instr.output .immediate).wf = true ∧ Instr.halt.wf = true := by decide

/-! ## Decoding, by section 2.1 of the vectors -/

/-- S5: the four-tuple of 1002. -/
theorem test_decode_fields_of_1002 :
    decodeFields 1002 = .ok { opcode := 2, m1 := .position, m2 := .immediate, m3 := .position } := by rfl

/-- VD1, VD3, VD4, VD5, VD8, VD9, VD47. -/
theorem test_decode_add : [1, 1101, 101, 11101, 2001, 20001, 100001].map decoded =
    [some (.add .position .position .position), some (.add .immediate .immediate .position),
     some (.add .immediate .position .position), some (.add .immediate .immediate .immediate),
     some (.add .position (.reserved 0) .position), some (.add .position .position (.reserved 0)),
     some (.add .position .position .position)] := by decide

/-- VD2. -/
theorem test_decode_mul : decoded 1002 = some (.mul .position .immediate .position) := by decide

/-- VD10, VD11, VD13, VD14. -/
theorem test_decode_input : [3, 103, 11003, 203].map decoded =
    [some (.input .position), some (.input .immediate), some (.input .position), some (.input (.reserved 0))] := by decide

/-- VD15, VD16, VD18. -/
theorem test_decode_output : [4, 104, 11104].map decoded =
    [some (.output .position), some (.output .immediate), some (.output .immediate)] := by decide

/-- VD20, VD22, VD23, VD26. -/
theorem test_decode_jnz : [1105, 1005, 2105, 20005].map decoded =
    [some (.jnz .immediate .immediate), some (.jnz .position .immediate), some (.jnz .immediate (.reserved 0)),
     some (.jnz .position .position)] := by decide

/-- VD27, VD28. -/
theorem test_decode_jz : [6, 1106].map decoded =
    [some (.jz .position .position), some (.jz .immediate .immediate)] := by decide

/-- VD30, VD31, VD53. -/
theorem test_decode_lt : [1107, 10007, 9223372036854775807].map decoded =
    [some (.lt .immediate .immediate .position), some (.lt .position .position .immediate),
     some (.lt (.reserved 6) (.reserved 3) (.reserved 5))] := by decide

/-- VD33. -/
theorem test_decode_eq : decoded 1008 = some (.eq .position .immediate .position) := by decide

/-- VD35, VD38, VD39, VD48. -/
theorem test_decode_halt : [99, 99999, 10099, 1000099].map decoded =
    [some .halt, some .halt, some .halt, some .halt] := by decide

/-- VD40 to VD46, VD49 to VD52, VD54: no instruction. -/
theorem test_decode_rejects :
    [0, 9, 42, 98, 100, 109, 1100, -1, -99, -100, -101, -9223372036854775808].map decoded = List.replicate 12 none := by
  decide

/-- R76: the assembler's table, line by line. -/
theorem test_assemble :
    (assemble
      [.instr (.add .position .immediate .position) [5, word (-3), 0],
       .instr (.mul .immediate .immediate .position) [6, 7, 0], .instr (.input .position) [9],
       .instr (.output .immediate) [42], .instr (.jnz .position .immediate) [20, 2],
       .instr (.jz .immediate .position) [0, 19], .instr (.lt .position .position .position) [18, 19, 20],
       .instr (.eq .position .immediate .position) [17, 8, 18], .instr .halt [], .dat (word (-1))]).map BitVec.toInt =
    [1001, 5, -3, 0, 1102, 6, 7, 0, 3, 9, 104, 42, 1005, 20, 2, 106, 0, 19, 7, 18, 19, 20, 1008, 17, 8, 18, 99, -1] := by
  decide

/-! ## One step of each instruction, by sections 2.2 to 2.12 of the vectors -/

/-- VA5: `dst` is the instruction's own parameter 2. -/
theorem test_add_old_values : ints (after (load [1, 0, 0, 2, 99])) = [1, 0, 2, 2, 99] := by decide

/-- VA9, VA18, VQ2, VQ5: overflow, a missing parameter, parameter order, operands before overflow. -/
theorem test_add_faults :
    [fault? [1101, 9223372036854775807, 1, 0, 99], fault? [1, 0, 0], fault? [10201, 0, 0, 0],
     fault? [1101, 9223372036854775807, 1, 9, 99]] =
    [some .overflow, some .outOfBounds, some .unsupportedMode, some .outOfBounds] := by decide

/-- VM7: a product of exactly `WMIN`. -/
theorem test_mul_least_word :
    ints (after (load [1102, -4294967296, 2147483648, 0, 99])) =
      [-9223372036854775808, -4294967296, 2147483648, 0, 99] := by decide

/-- VM5, VM8, VM9, VM11. -/
theorem test_mul_faults :
    [fault? [1102, -9223372036854775808, -1, 0, 99], fault? [1102, 3037000499, 3037000499, 0, 99],
     fault? [1102, 3037000500, 3037000500, 0, 99], fault? [10002, 0, 0, 0, 99]] =
    [some .overflow, none, some .overflow, some .invalidWriteMode] := by decide

/-- VI2, its first cycle: the head is consumed, IP advances by 2. -/
theorem test_input_takes_the_head :
    (let t := after (load [3, 0, 3, 1, 99] 0 [5, -6, 7]); (ints t, t.ip.toInt, t.inQ.map BitVec.toInt)) =
      ([5, 0, 3, 1, 99], 2, [-6, 7]) := by decide

/-- VI5, VI6, VI8, VI10: the reason, and that nothing is consumed. -/
theorem test_input_faults :
    [fault? [3, 0, 99], fault? [103, 0, 99] 0 [1], fault? [3, 3, 99] 0 [1], fault? [3, 5, 99]] =
      [some .inputExhausted, some .invalidWriteMode, some .outOfBounds, some .outOfBounds] ∧
    (after (load [3, 3, 99] 0 [1])).inQ = [1] := by decide

/-- VO1, VO2: position and immediate. -/
theorem test_output_appends :
    (after (load [4, 0, 99])).outQ = [4] ∧ (after (load [104, -5, 99])).outQ = [word (-5)] ∧
      (after (load [104, -5, 99])).ip = 2 := by decide

/-- VO5, VO6, VO7. -/
theorem test_output_faults : [fault? [4, 3, 99], fault? [204, 0, 99], fault? [4]] =
    [some .outOfBounds, some .unsupportedMode, some .outOfBounds] := by decide

/-- VJ1, VJ2, VJ3, VJ4, VJ8: taken, not taken, negative `a`, indirect target, target outside memory. -/
theorem test_jnz_ip :
    [load [1105, 1, 4, 99, 104, 7, 99], load [1105, 0, 4, 99, 104, 7, 99], load [11105, -1, 3, 99],
     load [5, 7, 8, 99, 104, 7, 99, -2, 4], load [1105, 1, -1]].map (fun s => (after s).ip.toInt) =
    [4, 3, 3, 4, -1] := by decide

/-- VJ12, VJ13, VJ15: the target is resolved whether or not the jump is taken. -/
theorem test_jnz_faults : [fault? [5, 0, 9, 99], fault? [105, 0, 9, 99], fault? [2105, 1, 3, 99]] =
    [some .outOfBounds, some .outOfBounds, some .unsupportedMode] := by decide

/-- VZ1, VZ2, VZ3, VZ6. -/
theorem test_jz_ip :
    [load [1106, 0, 4, 99, 104, 7, 99], load [1106, 5, 4, 99, 104, 7, 99], load [1106, -3, 4, 99, 104, 7, 99],
     load [1106, 0, 7, 99]].map (fun s => (after s).ip.toInt) = [4, 3, 3, 7] := by decide

/-- VZ7, VZ8. -/
theorem test_jz_faults : [fault? [106, 1, 9, 99], fault? [2106, 0, 3, 99]] =
    [some .outOfBounds, some .unsupportedMode] := by decide

/-- VL2, VL3, VL5, VL6: strict, signed, extremes, its own parameter as destination. -/
theorem test_lt_results :
    [load [1107, 0, 0, 0, 99], load [1107, -1, 0, 0, 99],
     load [1107, 9223372036854775807, -9223372036854775808, 0, 99], load [7, 1, 2, 3, 99]].map (fun s => ints (after s)) =
    [[0, 0, 0, 0, 99], [1, -1, 0, 0, 99], [0, 9223372036854775807, -9223372036854775808, 0, 99], [7, 1, 2, 1, 99]] := by
  decide

/-- VL7, VL8. -/
theorem test_lt_faults : [fault? [10007, 0, 0, 0, 99], fault? [1107, 1, 2, 9, 99]] =
    [some .invalidWriteMode, some .outOfBounds] := by decide

/-- VE1, VE2, VE4. -/
theorem test_eq_results :
    [load [1108, 8, 8, 0, 99], load [1108, 8, -8, 0, 99], load [108, 8, 0, 0, 99]].map (fun s => ints (after s)) =
    [[1, 8, 8, 0, 99], [0, 8, -8, 0, 99], [0, 8, 0, 0, 99]] := by decide

/-- VE6, VE7. -/
theorem test_eq_faults : [fault? [10008, 0, 0, 0, 99], fault? [1108, 0, 0, 5, 99]] =
    [some .invalidWriteMode, some .outOfBounds] := by decide

/-- VH4, VH5: halt in the last cell, all mode digits ignored, IP kept. -/
theorem test_halt :
    [load [99999], load [1, 99] 1].map (fun s => ((after s).engine, (after s).ip.toInt, (after s).faultReg)) =
      [(.halted, 0, none), (.halted, 1, none)] := by decide

/-- VH6, VH7, VH12, VH15, VF1, VF2, VQ8, VQ9. -/
theorem test_fetch_and_decode_faults :
    [fault? [0], fault? [9, 0, 99], fault? [-1], fault? [9223372036854775807], fault? [], fault? [99] 1, fault? [-5] 3,
     fault? [20042]] =
    [some .unsupportedOpcode, some .unsupportedOpcode, some .unsupportedOpcode, some .unsupportedMode,
     some .outOfBounds, some .outOfBounds, some .outOfBounds, some .unsupportedOpcode] := by decide

/-- S4 and P1: the word written by the first cycle is the instruction of the second. -/
theorem test_self_modification :
    ints (after (after (load [1, 1, 1, 4, 99, 5, 6, 0, 99]))) = [30, 1, 1, 4, 2, 5, 6, 0, 99] := by decide

/-- R184, by S1: the result of a run, and none before its end. -/
theorem test_result :
    result (load [1, 0, 0, 0, 99]) = none ∧
    (result (after (after (load [1, 0, 0, 0, 99])))).map (fun r => (r.finalMemory, r.outputs, r.terminal)) =
      some ([2, 0, 0, 0, 99], [], .halted) := by decide

/-- R181 (a), (b): a negative `START_IP` is no launch; a `START_IP` beyond memory is one. -/
theorem test_launch_preconditions :
    (launch [99] (word (-1)) []).isNone ∧ (launch [99] (word 9223372036854775807) []).isSome ∧
      (launch [] 0 []).isSome := by decide

/-- Log entry 8, with the words of R76: after reset, a placed word is what the next step runs. -/
theorem test_placed_after_reset :
    decodeTableWord 64 99 = some .halt ∧ (after (State.reset.withFetchWord 64 99)).engine = .halted ∧
    decodeTableWord 256 1101 = some (.add .immediate .immediate .position) ∧
    ints (after (State.reset.withFetchWord 256 1101)) = [0, 0, 0, 0] ∧
    (after (State.reset.withFetchWord 256 1101)).ip = 4 := by decide

/-! ## The obligations' hypotheses are met

One theorem for each obligation that has hypotheses, with a conjunct for each clause. -/

open Sys2Proof.Rules

/-- VA2. -/
def sAdd : State := load [1101, 7, -9, 0, 99]
/-- VI1. -/
def sInput : State := load [3, 0, 99] 0 [77]
/-- VO2. -/
def sOutput : State := load [104, -5, 99]
/-- VJ1. -/
def sJnz : State := load [1105, 1, 4, 99, 104, 7, 99]
/-- VZ2. -/
def sJz : State := load [1106, 5, 4, 99, 104, 7, 99]
/-- VH1. -/
def sHalt : State := load [99]
/-- VH6. -/
def sIllegal : State := load [0]

theorem decode_of_decoded {w : Int} {i : Instr} (h : decoded w = some i) : decode (word w) = .ok i := by
  unfold decoded at h
  split at h
  · simp_all
  · simp at h

/-- The invariant of a `Running` state without a fault. -/
theorem inv_running {s : State} (h1 : s.mem.wf = true) (h2 : s.engine = .running) (h3 : s.faultReg = none) : s.Inv :=
  ⟨h1, by simp [h2, h3], by simp [h2], by simp [h2]⟩

theorem witness_LaunchSetsEveryItem :
    (∃ s, launch [word 1101, word 7, word (-9), 0, 99] 0 [5] = some s) ∧
      (∃ s, launch [] (word 9223372036854775807) [] = some s) :=
  ⟨⟨_, rfl⟩, ⟨_, rfl⟩⟩

theorem witness_LaunchSatisfiesTheInvariant : ∃ s, launch [0, 5, 0] 0 [] = some s := ⟨_, rfl⟩

theorem witness_StepKeepsTheInvariant : sAdd.Inv ∧ step sAdd = .next (after sAdd) ∧ after sAdd ≠ sAdd :=
  ⟨inv_running (by decide) (by decide) (by decide), step_after _, by decide⟩

/-- The invariant holds of a halted and of a faulted state too. -/
theorem witness_StepKeepsTheInvariant_terminal :
    (after sHalt).Inv ∧ (after sHalt).engine = .halted ∧ (after sIllegal).Inv ∧ (after sIllegal).engine = .faulted :=
  ⟨⟨by decide, by decide, fun _ => ⟨99, by decide, by rfl⟩, fun h => absurd h (by decide)⟩, by decide,
   ⟨by decide, by decide, fun h => absurd h (by decide), fun _ => eq_next (by decide)⟩, by decide⟩

theorem witness_StepAlwaysAnswersAState : sIllegal.engine = .running ∧ (after sIllegal).engine = .faulted := by decide

theorem witness_TerminalStatesAreAbsorbing :
    (after sHalt).engine ≠ .running ∧ (after sIllegal).engine ≠ .running := by decide

theorem run_one (s : State) : core.run 1 s = .next (after s) := core_run_succ (step_after s) 0

theorem ends_after_one {s : State} (h1 : s.engine = .running) (h2 : (after s).engine ≠ .running) : EndsIn s (after s) := by
  refine ⟨h2, 1, run_one _, ?_⟩
  intro j hj u hu
  have h0 : j = 0 := by omega
  subst h0
  change Host.Outcome.next s = .next u at hu
  injection hu with h
  rwa [← h]

/-- A run that ends by `halt` (VH1) and one that ends by a fault (VH6), each with both kinds of reached state. -/
theorem witness_EndOfARunIsUnique :
    (sHalt.engine = .running ∧ EndsIn sHalt (after sHalt) ∧ Reaches sHalt sHalt ∧
      Reaches sHalt (after sHalt) ∧ (after sHalt).engine = .halted) ∧
    (sIllegal.engine = .running ∧ EndsIn sIllegal (after sIllegal) ∧ Reaches sIllegal sIllegal ∧
      Reaches sIllegal (after sIllegal) ∧ (after sIllegal).engine = .faulted) :=
  ⟨⟨by decide, ends_after_one (by decide) (by decide), ⟨0, rfl⟩, ⟨1, run_one _⟩, by decide⟩,
   by decide, ends_after_one (by decide) (by decide), ⟨0, rfl⟩, ⟨1, run_one _⟩, by decide⟩

theorem witness_RunsConsumeInputAndAppendOutput :
    (Reaches sInput (after sInput) ∧ (after sInput).inQ ≠ sInput.inQ) ∧
      (Reaches sOutput (after sOutput) ∧ (after sOutput).outQ ≠ sOutput.outQ) :=
  ⟨⟨⟨1, run_one _⟩, by decide⟩, ⟨⟨1, run_one _⟩, by decide⟩⟩

theorem witness_ResultIsTheFinalState :
    (sAdd.Inv ∧ sAdd.engine = .running) ∧ ((after sHalt).Inv ∧ (after sHalt).engine ≠ .running) ∧
      ((after sIllegal).Inv ∧ (after sIllegal).faultReg = some .unsupportedOpcode) :=
  ⟨⟨inv_running (by decide) (by decide) (by decide), by decide⟩,
   ⟨witness_StepKeepsTheInvariant_terminal.1, by decide⟩,
   ⟨witness_StepKeepsTheInvariant_terminal.2.2.1, by decide⟩⟩

theorem witness_StepRunsTheDecodedInstruction :
    sAdd.engine = .running ∧ sAdd.mem.word? sAdd.ip.toInt = some (word 1101) ∧
      decode (word 1101) = .ok (.add .immediate .immediate .position) :=
  ⟨by decide, by decide, decode_of_decoded (by decide)⟩

/-- VF1, VF2, and the negative IP after VJ8. -/
theorem witness_FetchOutsideMemoryFaults :
    [load [], load [99] 1, after (load [1105, 1, -1])].all
      (fun s => decide (s.engine = .running) && outside s s.ip.toInt) = true := by decide

theorem witness_WordsThatSelectNoInstructionFault :
    sIllegal.engine = .running ∧ sIllegal.mem.word? sIllegal.ip.toInt = some (word 0) ∧
    [-1, -9223372036854775808].all (fun w => decide ((word w).toInt < 0)) = true ∧
    [0, 100].all (fun w => decide ((word w).toInt % 100 = 0)) = true ∧
    [9, 98, 109].all (fun w => decide (9 ≤ (word w).toInt % 100 ∧ (word w).toInt % 100 ≤ 98)) = true := by decide

theorem witness_PlacedInstructionRunsNext :
    State.reset.mem.wf = true ∧ decodeTableWord 256 1101 = some (.add .immediate .immediate .position) ∧
      sAdd.mem.wf = true ∧ decodeTableWord 64 99 = some .halt := by decide

theorem witness_UndemandedDigitsAreIgnored :
    decode (word 104) = .ok (.output .immediate) ∧ 0 ≤ (word 11104).toInt ∧
      (word 11104).toInt % 10 ^ (2 + (Instr.output .immediate).params.length) =
        (word 104).toInt % 10 ^ (2 + (Instr.output .immediate).params.length) :=
  ⟨decode_of_decoded (by decide), by decide, by decide⟩

theorem witness_MemoryPrimitivesFollowTheirRules :
    [0, 4].all (fun a : Int => decide (0 ≤ a ∧ a < (sAdd.mem.len.val : Int))) = true ∧
    [-1, 5].all (fun a : Int => ! decide (0 ≤ a ∧ a < (sAdd.mem.len.val : Int))) = true ∧
    sAdd.mem.wf = true ∧ memWriteCheck sAdd 4 = .ok 4 :=
  ⟨by decide, by decide, by decide, rfl⟩

theorem witness_CanonicalMemoryIsDeterminedByItsWords :
    sAdd.mem.wf = true ∧ ∀ a : Int, sAdd.mem.word? a = sAdd.mem.word? a := ⟨by decide, fun _ => rfl⟩

theorem witness_FirstIllegalModeFaults :
    (Instr.add .immediate (.reserved 0) .immediate).params =
      [(.read, .immediate)] ++ (.read, .reserved 0) :: [(.write, .immediate)] ∧
    (∀ p ∈ [(ParamKind.read, Mode.immediate)], modeFault p.1 p.2 = none) ∧
    modeFault .read (.reserved 0) = some .unsupportedMode ∧
    (Instr.input .immediate).params = [] ++ (.write, .immediate) :: [] ∧
    modeFault .write .immediate = some .invalidWriteMode := by decide

theorem reads_immediate {s : State} {i : Nat} {v : Word} (h : s.mem.word? (s.ip.toInt + i) = some v) :
    ReadsAs s i .immediate v := ⟨v, h, .inl ⟨rfl, rfl⟩⟩

theorem reads_position {s : State} {i : Nat} {v : Word} (p : Word)
    (h : s.mem.word? (s.ip.toInt + i) = some p ∧ s.mem.word? p.toInt = some v) :
    ReadsAs s i .position v := ⟨p, h.1, .inr ⟨rfl, h.2⟩⟩

theorem writes_to {s : State} {i d : Nat} (p : Word)
    (h : d < s.mem.len.val ∧ s.mem.word? (s.ip.toInt + i) = some p ∧ p.toInt = d) : WritesTo s i d :=
  ⟨h.1, p, h.2⟩

/-- VA2 for immediate operands, VA1 for position operands. -/
theorem witness_AddCompletes :
    (ReadsAs sAdd 1 .immediate 7 ∧ ReadsAs sAdd 2 .immediate (word (-9)) ∧ WritesTo sAdd 3 0 ∧
      fits ((7 : Word).toInt + (word (-9)).toInt) = true) ∧
    (let s := load [1, 5, 6, 0, 99, 7, -9]; ReadsAs s 1 .position 7 ∧ ReadsAs s 2 .position (word (-9)) ∧ WritesTo s 3 0) :=
  ⟨⟨reads_immediate (by decide), reads_immediate (by decide), writes_to 0 (by decide), by decide⟩,
   reads_position 5 (by decide), reads_position 6 (by decide), writes_to 0 (by decide)⟩

theorem witness_MulCompletes :
    let s := load [1102, -1, -1, 0, 99]
    ReadsAs s 1 .immediate (word (-1)) ∧ ReadsAs s 2 .immediate (word (-1)) ∧ WritesTo s 3 0 ∧
      fits ((word (-1)).toInt * (word (-1)).toInt) = true :=
  ⟨reads_immediate (by decide), reads_immediate (by decide), writes_to 0 (by decide), by decide⟩

theorem witness_InputCompletes : WritesTo sInput 1 0 ∧ sInput.inQ = [77] :=
  ⟨writes_to 0 (by decide), by decide⟩

theorem witness_OutputCompletes : ReadsAs sOutput 1 .immediate (word (-5)) := reads_immediate (by decide)

/-- Taken and not taken. -/
theorem witness_JnzCompletes :
    (ReadsAs sJnz 1 .immediate 1 ∧ ReadsAs sJnz 2 .immediate 4) ∧
      (let s := load [1105, 0, 4, 99, 104, 7, 99]; ReadsAs s 1 .immediate 0 ∧ ReadsAs s 2 .immediate 4) :=
  ⟨⟨reads_immediate (by decide), reads_immediate (by decide)⟩, reads_immediate (by decide), reads_immediate (by decide)⟩

/-- Not taken and taken. -/
theorem witness_JzCompletes :
    (ReadsAs sJz 1 .immediate 5 ∧ ReadsAs sJz 2 .immediate 4) ∧
      (let s := load [1106, 0, 4, 99, 104, 7, 99]; ReadsAs s 1 .immediate 0 ∧ ReadsAs s 2 .immediate 4) :=
  ⟨⟨reads_immediate (by decide), reads_immediate (by decide)⟩, reads_immediate (by decide), reads_immediate (by decide)⟩

/-- VL1. -/
theorem witness_LtCompletes :
    let s := load [7, 5, 6, 0, 99, 3, 4]
    ReadsAs s 1 .position 3 ∧ ReadsAs s 2 .position 4 ∧ WritesTo s 3 0 :=
  ⟨reads_position 5 (by decide), reads_position 6 (by decide), writes_to 0 (by decide)⟩

/-- VE1. -/
theorem witness_EqCompletes :
    let s := load [1108, 8, 8, 0, 99]
    ReadsAs s 1 .immediate 8 ∧ ReadsAs s 2 .immediate 8 ∧ WritesTo s 3 0 :=
  ⟨reads_immediate (by decide), reads_immediate (by decide), writes_to 0 (by decide)⟩

theorem fetches_of {s : State} {op : Int} (h : 0 ≤ (instrWord s).toInt ∧ (instrWord s).toInt % 100 = op) :
    fetches s op := .inr h

/-- One image for each fault before EXECUTE of a format `R2W` instruction, in the order of `faultsR2W` (VF2, VA13, reserved
digits in places 2 and 3, VA12, VA16, a bad second parameter, VA14). -/
def r2wFaults (op : Int) : List (Option FaultReason) :=
  [fault? [op] 1, fault? [200 + op, 1, 1, 0, 99], fault? [2000 + op, 1, 1, 0, 99], fault? [20000 + op, 1, 1, 0, 99],
   fault? [11100 + op, 1, 1, 0, 99], fault? [op, 9, 0, 0, 99], fault? [op, 0, 9, 0, 99], fault? [op, 0, 0, 5, 99]]

theorem witness_faultsR2W : [1, 2, 7, 8].all (fun op => r2wFaults op =
    [some .outOfBounds, some .unsupportedMode, some .unsupportedMode, some .unsupportedMode, some .invalidWriteMode,
     some .outOfBounds, some .outOfBounds, some .outOfBounds]) = true := by decide

/-- One image for each fault of a format `R2` instruction, in the order of `faultsR2` (VF2, VJ16, VJ15, a bad first
parameter, VJ12). -/
def r2Faults (op : Int) : List (Option FaultReason) :=
  [fault? [op] 1, fault? [1200 + op, 1, 3, 99], fault? [2100 + op, 1, 3, 99], fault? [op, 9, 0, 99], fault? [op, 0, 9, 99]]

theorem witness_faultsR2 : [5, 6].all (fun op => r2Faults op =
    [some .outOfBounds, some .unsupportedMode, some .unsupportedMode, some .outOfBounds, some .outOfBounds]) = true := by
  decide

/-- VA2 completes, VA9 overflows; VF2 is the other alternative of `fetches`. -/
theorem witness_AddFollowsItsRule :
    sAdd.engine = .running ∧ fetches sAdd 1 ∧ fetches (load [99] 1) 1 ∧
      [fault? [1101, 7, -9, 0, 99], fault? [1101, 9223372036854775807, 1, 0, 99]] = [none, some .overflow] :=
  ⟨by decide, fetches_of (by decide), .inl (by decide), by decide⟩

/-- VM2 completes, VM10 overflows. -/
theorem witness_MulFollowsItsRule :
    (load [1102, -1, -1, 0, 99]).engine = .running ∧ fetches (load [1102, -1, -1, 0, 99]) 2 ∧
      [fault? [1102, -1, -1, 0, 99], fault? [1102, 9223372036854775807, 2, 0, 99]] = [none, some .overflow] :=
  ⟨by decide, fetches_of (by decide), by decide⟩

/-- VI1, and VF2, VI7, VI6, VI8, VI5. -/
theorem witness_InputFollowsItsRule :
    sInput.engine = .running ∧ fetches sInput 3 ∧ fault? [3, 0, 99] 0 [77] = none ∧
      [fault? [99] 1, fault? [203, 0, 99] 0 [1], fault? [103, 0, 99] 0 [1], fault? [3, 3, 99] 0 [1], fault? [3, 0, 99]] =
        [some .outOfBounds, some .unsupportedMode, some .invalidWriteMode, some .outOfBounds, some .inputExhausted] :=
  ⟨by decide, fetches_of (by decide), by decide, by decide⟩

/-- VO2, and VF2, VO6, VO5. -/
theorem witness_OutputFollowsItsRule :
    sOutput.engine = .running ∧ fetches sOutput 4 ∧
      [fault? [104, -5, 99], fault? [4] 1, fault? [204, 0, 99], fault? [4, 3, 99]] =
        [none, some .outOfBounds, some .unsupportedMode, some .outOfBounds] :=
  ⟨by decide, fetches_of (by decide), by decide⟩

/-- VJ1, taken, and VJ2, not taken. -/
theorem witness_JnzFollowsItsRule :
    sJnz.engine = .running ∧ fetches sJnz 5 ∧ fault? [1105, 1, 4, 99, 104, 7, 99] = none ∧
      fetches (load [1105, 0, 4, 99, 104, 7, 99]) 5 ∧ fault? [1105, 0, 4, 99, 104, 7, 99] = none :=
  ⟨by decide, fetches_of (by decide), by decide, fetches_of (by decide), by decide⟩

/-- VZ1, taken, and VZ2, not taken. -/
theorem witness_JzFollowsItsRule :
    sJz.engine = .running ∧ fetches sJz 6 ∧ fault? [1106, 5, 4, 99, 104, 7, 99] = none ∧
      fetches (load [1106, 0, 4, 99, 104, 7, 99]) 6 ∧ fault? [1106, 0, 4, 99, 104, 7, 99] = none :=
  ⟨by decide, fetches_of (by decide), by decide, fetches_of (by decide), by decide⟩

theorem witness_LtFollowsItsRule :
    (load [7, 5, 6, 0, 99, 3, 4]).engine = .running ∧ fetches (load [7, 5, 6, 0, 99, 3, 4]) 7 ∧
      fault? [7, 5, 6, 0, 99, 3, 4] = none :=
  ⟨by decide, fetches_of (by decide), by decide⟩

theorem witness_EqFollowsItsRule :
    (load [1108, 8, 8, 0, 99]).engine = .running ∧ fetches (load [1108, 8, 8, 0, 99]) 8 ∧
      fault? [1108, 8, 8, 0, 99] = none :=
  ⟨by decide, fetches_of (by decide), by decide⟩

/-- VH1 and VF2. -/
theorem witness_HaltFollowsItsRule :
    sHalt.engine = .running ∧ fetches sHalt 99 ∧ fault? [99] = none ∧
      (load [99] 1).engine = .running ∧ fetches (load [99] 1) 99 ∧ fault? [99] 1 = some .outOfBounds :=
  ⟨by decide, fetches_of (by decide), by decide, by decide, .inl (by decide), by decide⟩

/-- The state after `i` in `s`. -/
def execAfter (i : Instr) (s : State) : State := (nextOf (exec i s)).getD s

/-- `add` stores at 0 (VA2); `lt` with a destination outside memory answers no address (VL8). -/
theorem witness_StoringInstructionsFrame :
    sAdd.mem.wf = true ∧
    exec (.add .immediate .immediate .position) sAdd = .next (execAfter (.add .immediate .immediate .position) sAdd) ∧
    writeAddr sAdd 3 = .ok 0 ∧
    exec (.lt .immediate .immediate .position) (load [1107, 1, 2, 9, 99]) =
      .next ((load [1107, 1, 2, 9, 99]).takeFault .outOfBounds) ∧
    writeAddr (load [1107, 1, 2, 9, 99]) 3 = .error .outOfBounds :=
  ⟨by decide, rfl, rfl, rfl, rfl⟩

theorem witness_InputFrame :
    sInput.mem.wf = true ∧ exec (.input .position) sInput = .next (execAfter (.input .position) sInput) ∧
    writeAddr sInput 1 = .ok 0 ∧
    exec (.input .position) (load [3, 3, 99] 0 [1]) = .next ((load [3, 3, 99] 0 [1]).takeFault .outOfBounds) ∧
    writeAddr (load [3, 3, 99] 0 [1]) 1 = .error .outOfBounds :=
  ⟨by decide, rfl, rfl, rfl, rfl⟩

theorem witness_NonStoringInstructionsFrame :
    exec (.output .immediate) sOutput = .next (execAfter (.output .immediate) sOutput) ∧
    exec (.jnz .immediate .immediate) sJnz = .next (execAfter (.jnz .immediate .immediate) sJnz) ∧
    exec (.jz .immediate .immediate) sJz = .next (execAfter (.jz .immediate .immediate) sJz) ∧
    exec .halt sHalt = .next (execAfter .halt sHalt) :=
  ⟨rfl, rfl, rfl, rfl⟩

/-- A cycle that faults, and for each shape of commit a cycle that completes: VA2 (also the address that `writeAddr`
answers), VI1, VO2, VJ1, VH1. -/
theorem witness_CyclesCommitAllOrNothing :
    (sIllegal.engine = .running ∧ step sIllegal = .next (after sIllegal) ∧ (after sIllegal).engine = .faulted) ∧
    ([sAdd, sInput, sOutput, sJnz, sHalt].all (fun s => decide (s.engine = .running ∧ (after s).faultReg = none)) = true ∧
      ∀ s, step s = .next (after s)) ∧
    (writeAddr sAdd 3 = .ok 0 ∧ writeAddr sInput 1 = .ok 0) :=
  ⟨⟨by decide, step_after _, by decide⟩, ⟨by decide, step_after⟩, rfl, rfl⟩

theorem witness_OnlyHaltHalts :
    (sHalt.engine = .running ∧ step sHalt = .next (after sHalt) ∧ (after sHalt).engine = .halted) ∧
    (sAdd.engine = .running ∧ step sAdd = .next (after sAdd) ∧ (after sAdd).engine ≠ .halted) :=
  ⟨⟨by decide, step_after _, by decide⟩, by decide, step_after _, by decide⟩

/-- For each reason that an instruction can raise, one that raises it. -/
theorem witness_FaultReasonsByInstruction :
    sAdd.engine = .running ∧
    [(Instr.lt .position .immediate .position, sAdd), (.input .immediate, sAdd), (.input .position, load [3, 0, 99]),
     (.jz (.reserved 0) .position, sAdd),
     (.add .immediate .immediate .position, load [1101, 9223372036854775807, 1, 0, 99])].map
      (fun p => (execAfter p.1 p.2).faultReg) =
    [some .outOfBounds, some .invalidWriteMode, some .inputExhausted, some .unsupportedMode, some .overflow] := by decide

theorem witness_CompletedCyclesStartInsideMemory : Completes sAdd ∧ Completes (load [1, 99] 1) :=
  ⟨⟨by decide, _, step_after _, by decide⟩, by decide, _, step_after _, by decide⟩

theorem witness_AdvanceIsExactOrAJump :
    (exec (.input .position) sInput = .next (execAfter (.input .position) sInput) ∧
      (execAfter (.input .position) sInput).engine = .running ∧ (execAfter (.input .position) sInput).ip = 2) ∧
    (exec (.jnz .immediate .immediate) sJnz = .next (execAfter (.jnz .immediate .immediate) sJnz) ∧
      (execAfter (.jnz .immediate .immediate) sJnz).engine = .running ∧
      (execAfter (.jnz .immediate .immediate) sJnz).ip = 4) :=
  ⟨⟨rfl, by decide, by decide⟩, rfl, by decide, by decide⟩

theorem witness_ExactlyOneOfJnzAndJzIsTaken : ReadsAs sJz 1 .immediate 5 ∧ ReadsAs sJz 2 .immediate 4 :=
  ⟨reads_immediate (by decide), reads_immediate (by decide)⟩

/-- VA1 for `add`, its second parameter in position mode; VM12 for `mul`, its second parameter in immediate mode. -/
theorem witness_ImmediateTwinWritesTheSame :
    (let s := load [1, 5, 6, 0, 99, 7, -9]
     s.mem.wf = true ∧ s.engine = .running ∧ s.ip.toInt = (0 : Nat) ∧ s.mem.word? (0 : Nat) = some (word 1) ∧
      decode (word 1) = .ok (.add .position .position .position) ∧ ReadsAs s 1 .position 7 ∧
      ((raw s 2).toInt ≠ (0 : Nat) ∧ (raw s 2).toInt ≠ (0 : Nat) + 1) ∧ step s = .next (after s) ∧
      (after s).engine = .running) ∧
    (let s := load [1002, 4, 3, 4, 33]
     s.mem.wf = true ∧ s.engine = .running ∧ s.ip.toInt = (0 : Nat) ∧ s.mem.word? (0 : Nat) = some (word 1002) ∧
      decode (word 1002) = .ok (.mul .position .immediate .position) ∧ ReadsAs s 1 .position 33 ∧
      step s = .next (after s) ∧ (after s).engine = .running) :=
  ⟨⟨by decide, by decide, by decide, by decide, decode_of_decoded (by decide), reads_position 5 (by decide), by decide,
    step_after _, by decide⟩,
   by decide, by decide, by decide, by decide, decode_of_decoded (by decide), reads_position 4 (by decide),
   step_after _, by decide⟩

/-- VA3: the word written at the next address is `halt`. -/
theorem witness_WrittenWordIsFetchedNext :
    let s := load [101, -1, 4, 4, 100]
    s.mem.wf = true ∧ s.engine = .running ∧ ReadsAs s 1 .immediate (word (-1)) ∧ ReadsAs s 2 .position 100 ∧
      WritesTo s 3 4 ∧
      exec (.add .immediate .position .position) s = .next (execAfter (.add .immediate .position .position) s) ∧
      (execAfter (.add .immediate .position .position) s).engine = .running ∧ ((4 : Nat) : Int) = s.ip.toInt + 4 ∧
      decode (Word.ofInt ((word (-1)).toInt + (100 : Word).toInt)) = .ok .halt :=
  ⟨by decide, by decide, reads_immediate (by decide), reads_position 4 (by decide), writes_to 4 (by decide), rfl,
   by decide, by decide, rfl⟩

theorem witness_StepIsThePseudocodeCycle : sAdd.engine = .running ∧ sIllegal.engine = .running := by decide

end Sys2Proof.Tests
end

section
/-!
PROOFS. The state, the launch and runs: what every launch gives, what every step keeps, and what follows over whole runs.
-/

namespace Sys2Proof.Machine

open Sys2Proof.Rules

/-! ## The launch -/

/-- R34: `MEM[a] = image[a]`, at every address. -/
theorem Memory.word?_ofImage {image : List Word} {m : Memory} (h : Memory.ofImage image = some m) (a : Nat) :
    m.word? a = image[a]? := by
  obtain ⟨hlen, hcells⟩ := Memory.ofImage_eq_some.mp h
  by_cases ha : a < image.length
  · have hcell := lookupCell_imageCells 0 image a
    rw [Memory.word?_of_valid (by omega), hcells, Int.toNat_natCast]
    simpa [ha] using hcell
  · rw [Memory.word?_eq_none.mpr (by omega), List.getElem?_eq_none (by omega)]

/-- Settles O3, by the inversion of the launch. -/
theorem launchSetsEveryItem : Obligations.LaunchSetsEveryItem := by
  intro image startIp inputs s h
  obtain ⟨-, m, hm, rfl⟩ := launch_eq_some.mp h
  exact ⟨(Memory.ofImage_eq_some.mp hm).1, Memory.word?_ofImage hm, rfl, rfl, rfl, rfl, rfl⟩

/-- Settles O1: no words make the empty memory of length 0, and the other items are the launch's own. -/
theorem resetIsTheEmptyLaunch : Obligations.ResetIsTheEmptyLaunch :=
  ⟨launch_eq_some.mpr ⟨by decide, _, rfl, rfl⟩, rfl, rfl, rfl⟩

/-! ## The invariant -/

/-- In a `Running` state only the memory's form and an empty `FAULT` are left of the invariant. -/
theorem State.inv_iff_of_running {s : State} (hr : s.engine = .running) :
    s.Inv ↔ s.mem.wf = true ∧ s.faultReg = none := by
  constructor
  · rintro ⟨hmem, hfault, -, -⟩
    exact ⟨hmem, by simpa [hr] using hfault⟩
  · rintro ⟨hmem, hfault⟩
    exact ⟨hmem, by simp [hr, hfault], by simp [hr], by simp [hr]⟩

/-- Settles O2: the reset state is `Running`, with a canonical memory and no fault. -/
theorem resetSatisfiesTheInvariant : Obligations.ResetSatisfiesTheInvariant :=
  (State.inv_iff_of_running rfl).mpr ⟨Memory.reset_wf, rfl⟩

/-- Settles O5: a launched state is `Running` without a fault, and an image's cells are canonical. -/
theorem launchSatisfiesTheInvariant : Obligations.LaunchSatisfiesTheInvariant := by
  intro image startIp inputs s h
  obtain ⟨-, m, hm, rfl⟩ := launch_eq_some.mp h
  exact (State.inv_iff_of_running rfl).mpr ⟨Memory.ofImage_wf hm, rfl⟩

/-- R89, R158: the fault entry of a cycle keeps the invariant, since it can be undone and the cycle run again. -/
theorem State.Inv.takeFault {s : State} {r : FaultReason} (hi : s.Inv) (hr : s.engine = .running)
    (h : step s = .next (s.takeFault r)) : (s.takeFault r).Inv where
  memCanonical := hi.memCanonical
  faultAgrees := by simp
  haltedAtHalt := by simp
  faultReproduces _ := by
    obtain ⟨-, hnone⟩ := (State.inv_iff_of_running hr).mp hi
    rw [s.takeFault_reentered r hr hnone]
    exact h

/-- R92, R140: `halt` keeps the invariant, since IP stays at the word it was decoded from. -/
theorem State.Inv.stopHalted {s : State} (hi : s.Inv) (hr : s.engine = .running) (hf : fetchInstr s = .ok .halt) :
    s.stopHalted.Inv where
  memCanonical := hi.memCanonical
  faultAgrees := by simp [((State.inv_iff_of_running hr).mp hi).2]
  haltedAtHalt _ := fetchInstr_eq_ok.mp hf
  faultReproduces := by simp

/-- R89: a cycle that commits keeps the invariant, whatever the instruction. -/
theorem State.Inv.exec {s t : State} {i : Instr} (hi : s.Inv) (hr : s.engine = .running) (hf : fetchInstr s = .ok i)
    (hs : step s = .next t) (h : exec i s = .next t) : t.Inv := by
  obtain ⟨hwf, hnone⟩ := (State.inv_iff_of_running hr).mp hi
  rcases exec_cases h with ⟨r, rfl⟩ | ⟨hmem, -, -, ⟨hengine, hfault, -⟩ | ⟨rfl, rfl⟩⟩
  · exact hi.takeFault hr hs
  · refine (State.inv_iff_of_running (hengine.trans hr)).mpr ⟨?_, hfault.trans hnone⟩
    rcases hmem with hmem | ⟨d, v, hd, hmem⟩ <;> rw [hmem]
    · exact hwf
    · exact Memory.set_wf hwf hd
  · exact hi.stopHalted hr hf

/-- R32: a step of a terminal state answers that state. -/
theorem eq_of_step_terminal {s t : State} (ht : s.engine ≠ .running) (h : step s = .next t) : t = s := by
  rw [step_terminal ht] at h
  injection h with h
  exact h.symm

/-- Settles O6, by what a step can do: hold a terminal state, take a fault at the fetch, or run an instruction. -/
theorem stepKeepsTheInvariant : Obligations.StepKeepsTheInvariant := by
  intro s t hi h
  by_cases hr : s.engine = .running
  · rcases step_cases hr h with ⟨i, hf, hexec⟩ | ⟨r, rfl, -⟩
    · exact hi.exec hr hf h hexec
    · exact hi.takeFault hr h
  · rwa [eq_of_step_terminal hr h]

/-! ## Runs -/

/-- A relation that every state has to itself, and that a step in front keeps, holds between the ends of every run. -/
theorem Reaches.head_induction {R : State → State → Prop} (refl : ∀ s, R s s)
    (head : ∀ {s u t}, step s = .next u → R u t → R s t) {s t : State} (h : Reaches s t) : R s t := by
  obtain ⟨k, hk⟩ := h
  induction k generalizing s with
  | zero => exact core_run_zero_eq.mp hk ▸ refl s
  | succ k ih =>
    obtain ⟨u, hu⟩ := step_next s
    rw [core_run_succ hu] at hk
    exact head hu (ih hk)

/-- Settles O8, by induction on the number of steps. -/
theorem terminalStatesAreAbsorbing : Obligations.TerminalStatesAreAbsorbing := by
  intro s k ht
  induction k with
  | zero => rfl
  | succ k ih => rw [core_run_succ (step_terminal ht), ih]

theorem channelGrows_refl (s : State) : ChannelGrows s s := ⟨⟨[], rfl⟩, ⟨[], by simp⟩, rfl⟩

theorem channelGrows_trans {s u t : State} (h : ChannelGrows s u) (h' : ChannelGrows u t) : ChannelGrows s t := by
  obtain ⟨⟨taken, hin⟩, ⟨emitted, hout⟩, hlen⟩ := h
  obtain ⟨⟨taken', hin'⟩, ⟨emitted', hout'⟩, hlen'⟩ := h'
  exact ⟨⟨taken ++ taken', by simp [hin, hin']⟩, ⟨emitted ++ emitted', by simp [hout, hout']⟩, hlen'.trans hlen⟩

theorem channelGrows_takeFault (s : State) (r : FaultReason) : ChannelGrows s (s.takeFault r) :=
  channelGrows_refl s

/-- R31, R112: a cycle takes at most the head of `IN` and appends at most one word to `OUT`. -/
theorem channelGrows_exec {s t : State} {i : Instr} (h : exec i s = .next t) : ChannelGrows s t := by
  rcases exec_cases h with ⟨r, rfl⟩ | ⟨hmem, hin, hout, -⟩
  · exact channelGrows_takeFault s r
  · refine ⟨?_, ?_, ?_⟩
    · rcases hin with hin | ⟨x, hin⟩
      · exact ⟨[], hin.symm⟩
      · exact ⟨[x], hin⟩
    · rcases hout with hout | ⟨v, hout⟩
      · exact ⟨[], by simp [hout]⟩
      · exact ⟨[v], hout⟩
    · rcases hmem with hmem | ⟨d, v, -, hmem⟩ <;> simp [hmem]

theorem channelGrows_step {s t : State} (h : step s = .next t) : ChannelGrows s t := by
  by_cases hr : s.engine = .running
  · rcases step_cases hr h with ⟨i, -, hexec⟩ | ⟨r, rfl, -⟩
    · exact channelGrows_exec hexec
    · exact channelGrows_takeFault s r
  · exact eq_of_step_terminal hr h ▸ channelGrows_refl s

/-- Settles O10, by induction on the run: one step only takes from `IN` and appends to `OUT`. -/
theorem runsConsumeInputAndAppendOutput : Obligations.RunsConsumeInputAndAppendOutput := fun _ _ =>
  Reaches.head_induction channelGrows_refl fun hstep hrest => channelGrows_trans (channelGrows_step hstep) hrest

/-! ## Memories as data -/

/-- Two memories of one length that read alike list the same word at every address, inside and beyond the length. -/
theorem Memory.lookupCell_congr {m m' : Memory} (h : m.wf = true) (h' : m'.wf = true) (hlen : m.len = m'.len)
    (hword : ∀ a : Int, m.word? a = m'.word? a) (a : Nat) : lookupCell m.cells a = lookupCell m'.cells a := by
  by_cases ha : a < m.len.val
  · have ha' : a < m'.len.val := hlen ▸ ha
    have hcell := hword a
    rw [Memory.word?_of_valid (by omega), Memory.word?_of_valid (by omega)] at hcell
    simpa using hcell
  · have ha' : ¬ a < m'.len.val := hlen ▸ ha
    rw [lookupCell_above h (by omega), lookupCell_above h' (by omega)]

/-- Settles O23, by the uniqueness of a canonical cell list. -/
theorem canonicalMemoryIsDeterminedByItsWords : Obligations.CanonicalMemoryIsDeterminedByItsWords := by
  intro m m' h h' hlen hword
  have hcells : m.cells = m'.cells :=
    canonicalFrom_ext h (hlen ▸ h') (Memory.lookupCell_congr h h' hlen hword)
  cases m
  cases m'
  simp only [Memory.mk.injEq]
  exact ⟨hlen, hcells⟩

/-! ## The instruction pointer -/

/-- Settles O50: a cycle that completes has fetched, so there is a word at IP. -/
theorem completedCyclesStartInsideMemory : Obligations.CompletedCyclesStartInsideMemory := by
  rintro s ⟨hr, t, hstep, hfault⟩
  rcases step_cases hr hstep with ⟨i, hf, -⟩ | ⟨r, rfl, -⟩
  · obtain ⟨w, hw, -⟩ := fetchInstr_eq_ok.mp hf
    exact Memory.word?_some_valid hw
  · exact absurd rfl hfault

/-- R85: the rule's own term for the value of a read parameter is what the resolver answers. -/
theorem readsAs_iff_readParam {s : State} {i : Nat} {m : Mode} {v : Word} :
    ReadsAs s i m v ↔ readParam s i m = .ok v := readParam_eq_ok.symm

/-- R90: past a last parameter that is read, IP advances without wrap-around. -/
theorem advance_toInt_of_readParam {s : State} {i : Nat} {m : Mode} {v : Word} (h : readParam s i m = .ok v)
    (hi : i ≤ 3) : (s.ip + BitVec.ofNat 64 (i + 1)).toInt = s.ip.toInt + (i + 1 : Nat) := by
  obtain ⟨p, hp, -⟩ := readParam_eq_ok.mp h
  exact advance_exact hp le_rfl (by omega)

/-- R90: past a last parameter that is written, IP advances without wrap-around. -/
theorem advance_toInt_of_writeAddr {s : State} {i d : Nat} (h : writeAddr s i = .ok d)
    (hi : i ≤ 3) : (s.ip + BitVec.ofNat 64 (i + 1)).toInt = s.ip.toInt + (i + 1 : Nat) := by
  obtain ⟨-, p, hp, -⟩ := writeAddr_eq_ok.mp h
  exact advance_exact hp le_rfl (by omega)

/-- R90: `add`, `mul`, `lt` and `eq` advance by 4. -/
theorem store_advance_toInt {s : State} {m1 m2 m3 : Mode} {a b : Word} {d : Nat}
    (h : operandsR2W m1 m2 m3 s = .ok (a, b, d)) (v : Word) :
    ((s.store d v).advance 4).ip.toInt = s.ip.toInt + (4 : Nat) := by
  obtain ⟨-, -, -, hd⟩ := operandsR2W_eq_ok.mp h
  exact advance_toInt_of_writeAddr (s := s) hd le_rfl

/-- R90, R91: what the rest of a cycle does to IP, where it neither faults nor halts: it advances IP by exactly the
instruction's length, or is a jump and loads IP with parameter 2. -/
theorem exec_ip_cases {s t : State} {i : Instr} (h : exec i s = .next t) :
    (∃ r, t = s.takeFault r) ∨ i = .halt ∨ t.ip.toInt = s.ip.toInt + (i.lengthWords : Int) ∨
      ((i.opcode = 5 ∨ i.opcode = 6) ∧ ∃ m1 m2, i.params = [(.read, m1), (.read, m2)] ∧ ReadsAs s 2 m2 t.ip) := by
  cases i with
  | add m1 m2 m3 =>
    rcases execAdd_cases h with ⟨a, b, d, ho, -, rfl⟩ | ⟨r, -, h⟩
    · exact .inr (.inr (.inl (store_advance_toInt ho _)))
    · exact .inl ⟨r, h⟩
  | mul m1 m2 m3 =>
    rcases execMul_cases h with ⟨a, b, d, ho, -, rfl⟩ | ⟨r, -, h⟩
    · exact .inr (.inr (.inl (store_advance_toInt ho _)))
    · exact .inl ⟨r, h⟩
  | lt m1 m2 m3 =>
    rcases execLt_cases h with ⟨a, b, d, ho, rfl⟩ | ⟨r, -, h⟩
    · exact .inr (.inr (.inl (store_advance_toInt ho _)))
    · exact .inl ⟨r, h⟩
  | eq m1 m2 m3 =>
    rcases execEq_cases h with ⟨a, b, d, ho, rfl⟩ | ⟨r, -, h⟩
    · exact .inr (.inr (.inl (store_advance_toInt ho _)))
    · exact .inl ⟨r, h⟩
  | input m1 =>
    rcases execInput_cases h with ⟨d, x, rest, ho, -, rfl⟩ | ⟨r, -, h⟩
    · obtain ⟨-, hd⟩ := operandsW1_eq_ok.mp ho
      exact .inr (.inr (.inl (advance_toInt_of_writeAddr (s := s) hd (by decide))))
    · exact .inl ⟨r, h⟩
  | output m1 =>
    rcases execOutput_cases h with ⟨a, ho, rfl⟩ | ⟨r, -, h⟩
    · exact .inr (.inr (.inl (advance_toInt_of_readParam (operandsR1_eq_ok.mp ho) (by decide))))
    · exact .inl ⟨r, h⟩
  | jnz m1 m2 =>
    rcases execJnz_cases h with ⟨a, target, ho, rfl⟩ | ⟨r, -, h⟩
    · obtain ⟨-, htarget⟩ := operandsR2_eq_ok.mp ho
      cases isZero a with
      | true => exact .inr (.inr (.inl (advance_toInt_of_readParam htarget (by decide))))
      | false => exact .inr (.inr (.inr ⟨.inl rfl, m1, m2, rfl, readsAs_iff_readParam.mpr htarget⟩))
    · exact .inl ⟨r, h⟩
  | jz m1 m2 =>
    rcases execJz_cases h with ⟨a, target, ho, rfl⟩ | ⟨r, -, h⟩
    · obtain ⟨-, htarget⟩ := operandsR2_eq_ok.mp ho
      cases isZero a with
      | true => exact .inr (.inr (.inr ⟨.inr rfl, m1, m2, rfl, readsAs_iff_readParam.mpr htarget⟩))
      | false => exact .inr (.inr (.inl (advance_toInt_of_readParam htarget (by decide))))
    · exact .inl ⟨r, h⟩
  | halt => exact .inr (.inl rfl)

/-- Settles O51: of what a cycle can do to IP, a fault does not end in `Running` and `halt` is excluded. -/
theorem advanceIsExactOrAJump : Obligations.AdvanceIsExactOrAJump := by
  intro s t i _ hhalt h hrunning
  rcases exec_ip_cases h with ⟨r, rfl⟩ | rfl | hip
  · simp at hrunning
  · exact absurd rfl hhalt
  · exact hip

/-! ## The status registers -/

theorem EngineState.code_ne_three (e : EngineState) : e.code ≠ 3 := by cases e <;> decide

theorem faultCode_ne_seven (f : Option FaultReason) : faultCode f ≠ 7 := by
  cases f with
  | none => decide
  | some r => cases r <;> decide

/-- Settles O49: the tables of R24 and R151, and the one code of each register's width that they leave unused. -/
theorem statusRegisterCodes : Obligations.StatusRegisterCodes :=
  ⟨rfl, rfl, rfl, rfl, rfl, rfl, rfl, rfl, rfl, rfl, EngineState.code_ne_three, faultCode_ne_seven⟩

end Sys2Proof.Machine
end

section
/-!
PROOFS. Memory: its two primitives, what each instruction leaves unchanged, and a written word as the next instruction.
-/

namespace Sys2Proof.Machine

open Sys2Proof.Rules

/-! ## The primitives -/

/-- Settles O22, by the cases of R41 and R42: an address inside memory has a word, one outside has none. -/
theorem memoryPrimitivesFollowTheirRules : Obligations.MemoryPrimitivesFollowTheirRules := by
  intro s a
  refine ⟨fun ha => ?_, fun ha => ?_, fun ha => ?_, fun hwf d hd v b => ?_⟩
  · have hword := Memory.word?_of_valid ha
    exact ⟨_, hword, memRead_eq_ok.mpr hword⟩
  · have hnone := Memory.word?_eq_none.mpr ha
    exact ⟨memRead_eq_error.mpr ⟨hnone, rfl⟩, memWriteCheck_eq_error.mpr ⟨hnone, rfl⟩⟩
  · exact memWriteCheck_eq_ok.mpr ⟨by omega, by omega⟩
  · obtain ⟨hlt, rfl⟩ := memWriteCheck_eq_ok.mp hd
    exact Memory.word?_set hwf hlt b

/-! ## Frames -/

/-- R42, R89: `t` holds the words of `s`, but for the one at the address that write parameter `k` of `s` resolves to;
where it resolves to none, `t` holds them all. -/
def KeepsWordsButAt (k : Nat) (s t : State) : Prop :=
  (∀ d, writeAddr s k = .ok d → ∀ a : Int, a ≠ d → t.mem.word? a = s.mem.word? a) ∧
  (∀ r, writeAddr s k = .error r → ∀ a : Int, t.mem.word? a = s.mem.word? a)

/-- R89: a cycle that faults writes nothing. -/
theorem keepsWordsButAt_takeFault (k : Nat) (s : State) (r : FaultReason) : KeepsWordsButAt k s (s.takeFault r) :=
  ⟨fun _ _ _ _ => rfl, fun _ _ _ => rfl⟩

/-- R42: one write at the address of parameter `k` keeps every other word. -/
theorem keepsWordsButAt_of_set {k d : Nat} {s t : State} {v : Word} (hwf : s.mem.wf = true)
    (hd : writeAddr s k = .ok d) (ht : t.mem = s.mem.set d v) : KeepsWordsButAt k s t := by
  constructor
  · intro d' hd' a ha
    obtain rfl : d = d' := by simpa [hd] using hd'
    rw [ht, Memory.word?_set hwf (writeAddr_eq_ok.mp hd).1, if_neg ha]
  · intro r hr
    simp [hd] at hr

/-- R100, R101, R130, R131: `add`, `mul`, `lt` and `eq` write one word at the address of parameter 3 and advance by 4, or
take a fault. -/
theorem exec_storing_cases {s t : State} {m1 m2 m3 : Mode} {i : Instr}
    (hi : i = .add m1 m2 m3 ∨ i = .mul m1 m2 m3 ∨ i = .lt m1 m2 m3 ∨ i = .eq m1 m2 m3) (h : exec i s = .next t) :
    (∃ d v, writeAddr s 3 = .ok d ∧ t = (s.store d v).advance 4) ∨ ∃ r, t = s.takeFault r := by
  have hd {a b : Word} {d : Nat} (ho : operandsR2W m1 m2 m3 s = .ok (a, b, d)) : writeAddr s 3 = .ok d := by
    obtain ⟨-, -, -, hd⟩ := operandsR2W_eq_ok.mp ho
    exact hd
  rcases hi with rfl | rfl | rfl | rfl
  · rcases execAdd_cases h with ⟨_, _, d, ho, -, ht⟩ | ⟨r, -, ht⟩
    · exact .inl ⟨d, _, hd ho, ht⟩
    · exact .inr ⟨r, ht⟩
  · rcases execMul_cases h with ⟨_, _, d, ho, -, ht⟩ | ⟨r, -, ht⟩
    · exact .inl ⟨d, _, hd ho, ht⟩
    · exact .inr ⟨r, ht⟩
  · rcases execLt_cases h with ⟨_, _, d, ho, ht⟩ | ⟨r, -, ht⟩
    · exact .inl ⟨d, _, hd ho, ht⟩
    · exact .inr ⟨r, ht⟩
  · rcases execEq_cases h with ⟨_, _, d, ho, ht⟩ | ⟨r, -, ht⟩
    · exact .inl ⟨d, _, hd ho, ht⟩
    · exact .inr ⟨r, ht⟩

/-- Settles O43: a storing instruction commits its one write and the advance, or takes a fault. -/
theorem storingInstructionsFrame : Obligations.StoringInstructionsFrame := by
  intro s t m1 m2 m3 i hwf hi h
  rcases exec_storing_cases hi h with ⟨d, v, hd, rfl⟩ | ⟨r, rfl⟩
  · exact ⟨rfl, rfl, rfl, .inl ⟨rfl, rfl⟩, keepsWordsButAt_of_set hwf hd rfl⟩
  · exact ⟨rfl, rfl, rfl, .inr ⟨r, rfl⟩, keepsWordsButAt_takeFault 3 s r⟩

/-- Settles O44: `input` commits the pop, its one write and the advance, or takes a fault. -/
theorem inputFrame : Obligations.InputFrame := by
  intro s t m1 hwf h
  rcases execInput_cases h with ⟨d, x, rest, ho, hq, rfl⟩ | ⟨r, -, rfl⟩
  · obtain ⟨-, hd⟩ := operandsW1_eq_ok.mp ho
    exact ⟨rfl, rfl, .inl ⟨rfl, rfl, x, hq⟩, keepsWordsButAt_of_set hwf hd rfl⟩
  · exact ⟨rfl, rfl, .inr ⟨r, rfl⟩, keepsWordsButAt_takeFault 1 s r⟩

/-- R90, R91: an advance is the jump to the address after the instruction. -/
theorem State.advance_eq_jump (s : State) (n : Nat) : s.advance n = s.jump (s.ip + BitVec.ofNat 64 n) := rfl

/-- R111, R120, R121, R140: `output` appends one word and advances, a jump changes IP alone, `halt` changes `STATE` alone;
any of them but `halt` may take a fault. -/
theorem exec_nonStoring_cases {s t : State} {m1 m2 : Mode} {i : Instr}
    (hi : i = .output m1 ∨ i = .jnz m1 m2 ∨ i = .jz m1 m2 ∨ i = .halt) (h : exec i s = .next t) :
    (i = .output m1 ∧ ∃ v, t = (s.emit v).advance 2) ∨ (i ≠ .halt ∧ ∃ target, t = s.jump target) ∨
      (i = .halt ∧ t = s.stopHalted) ∨ (i ≠ .halt ∧ ∃ r, t = s.takeFault r) := by
  rcases hi with rfl | rfl | rfl | rfl
  · rcases execOutput_cases h with ⟨v, -, ht⟩ | ⟨r, -, ht⟩
    · exact .inl ⟨rfl, v, ht⟩
    · exact .inr (.inr (.inr ⟨nofun, r, ht⟩))
  · rcases execJnz_cases h with ⟨a, target, -, ht⟩ | ⟨r, -, ht⟩
    · rw [State.advance_eq_jump, ← apply_ite] at ht
      exact .inr (.inl ⟨nofun, _, ht⟩)
    · exact .inr (.inr (.inr ⟨nofun, r, ht⟩))
  · rcases execJz_cases h with ⟨a, target, -, ht⟩ | ⟨r, -, ht⟩
    · rw [State.advance_eq_jump, ← apply_ite] at ht
      exact .inr (.inl ⟨nofun, _, ht⟩)
    · exact .inr (.inr (.inr ⟨nofun, r, ht⟩))
  · exact .inr (.inr (.inl ⟨rfl, (Host.Outcome.next.inj h).symm⟩))

/-- Settles O45, by the four things that such a cycle can do. -/
theorem nonStoringInstructionsFrame : Obligations.NonStoringInstructionsFrame := by
  intro s t m1 m2 i hi h
  rcases exec_nonStoring_cases hi h with ⟨rfl, v, rfl⟩ | ⟨hhalt, target, rfl⟩ | ⟨rfl, rfl⟩ | ⟨hhalt, r, rfl⟩
  · exact ⟨fun _ => rfl, rfl, rfl, fun hne => absurd rfl hne, .inl ⟨rfl, fun _ => rfl⟩, nofun⟩
  · exact ⟨fun _ => rfl, rfl, rfl, fun _ => rfl, .inl ⟨rfl, fun _ => rfl⟩, fun hi => absurd hi hhalt⟩
  · exact ⟨fun _ => rfl, rfl, rfl, fun _ => rfl, .inl ⟨rfl, fun hne => absurd rfl hne⟩, fun _ => ⟨rfl, rfl⟩⟩
  · exact ⟨fun _ => rfl, rfl, rfl, fun _ => rfl, .inr ⟨r, rfl⟩, fun hi => absurd hi hhalt⟩

/-! ## Self-modification -/

/-- R86: the rule's own term for the address of a write parameter is what the resolver answers. -/
theorem writesTo_iff_writeAddr {s : State} {i d : Nat} : WritesTo s i d ↔ writeAddr s i = .ok d := writeAddr_eq_ok.symm

/-- R80, R82: an enabled cycle runs the instruction that the word at IP decodes to. -/
theorem step_eq_exec {s : State} {w : Word} {i : Instr} (hr : s.engine = .running)
    (hw : s.mem.word? s.ip.toInt = some w) (hi : decode w = .ok i) : step s = exec i s := by
  rw [step_running hr, fetchInstr_eq_ok.mpr ⟨w, hw, hi⟩]

/-- R100: an `add` that does not end in a fault writes the sum of its operands at its destination and advances by 4. -/
theorem exec_add_eq_store {s t : State} {m1 m2 m3 : Mode} {a b : Word} {d : Nat}
    (ho : operandsR2W m1 m2 m3 s = .ok (a, b, d)) (h : exec (.add m1 m2 m3) s = .next t) (ht : t.engine ≠ .faulted) :
    t = (s.store d (Word.ofInt (a.toInt + b.toInt))).advance 4 := by
  rcases execAdd_cases h with ⟨a', b', d', ho', -, rfl⟩ | ⟨r, -, rfl⟩
  · rw [ho] at ho'
    cases ho'
    rfl
  · exact absurd rfl ht

/-- Settles O54: the next fetch reads the address that the `add` has written. -/
theorem writtenWordIsFetchedNext : Obligations.WrittenWordIsFetchedNext := by
  intro s t m1 m2 a b d i hwf hr ha hb hd h ht hnext hi
  have ho : operandsR2W m1 m2 .position s = .ok (a, b, d) :=
    operandsR2W_eq_ok.mpr
      ⟨rfl, readsAs_iff_readParam.mp ha, readsAs_iff_readParam.mp hb, writesTo_iff_writeAddr.mp hd⟩
  obtain rfl := exec_add_eq_store ho h (by simp [ht])
  refine step_eq_exec ht ?_ hi
  rw [store_advance_toInt ho, State.advance_mem, State.store_mem, Memory.word?_set hwf hd.1]
  exact if_pos hnext.symm

end Sys2Proof.Machine
end

section
/-!
PROOFS. The encoding: what the decoder reads of a word, the canonical word, the legal words, and the fault of an illegal
mode.
-/

namespace Sys2Proof

open Sys2Proof.Machine Sys2Proof.Rules

/-! ## The digits of a word -/

theorem Mode.toDigit_injective : Function.Injective fun m : Mode => (m.toDigit : Int) := by
  intro m m' h
  rw [← m.ofDigit_toDigit, ← m'.ofDigit_toDigit, Int.ofNat.inj h]

/-- R11: the decoder's digit of a word that is not negative is the rule's. -/
theorem toDigit_ofDigit_digit {w : Word} (h : 0 ≤ w.toInt) (k : Nat) :
    ((Mode.ofDigit (digit w.toInt.toNat k)).toDigit : Int) = digitOf w k := by
  rw [Mode.toDigit_ofDigit (digit_lt _ _)]
  simp [digit, digitOf, Int.toNat_of_nonneg h]

/-- R11: words that agree in their `n` low digits agree in each of these digits. -/
theorem digitOf_congr {w w' : Word} {n k : Nat} (hk : k < n) (h : w'.toInt % 10 ^ n = w.toInt % 10 ^ n) :
    digitOf w' k = digitOf w k := by
  obtain ⟨c, hc⟩ := Int.ModEq.dvd h.symm
  have hpow : (10 : Int) ^ n = 10 ^ k * (10 * 10 ^ (n - (k + 1))) := by
    rw [← pow_succ', ← pow_add]
    congr 1
    omega
  have hw' : w'.toInt = w.toInt + 10 ^ k * (10 * (10 ^ (n - (k + 1)) * c)) := by
    linear_combination hc + c * hpow
  rw [digitOf, hw', Int.add_mul_ediv_left _ _ (by positivity), Int.add_mul_emod_self_left, digitOf]

/-! ## The decoder -/

/-- R67, R70 (a): the dispatch table selects `i` by its opcode, and takes as many of the three modes as it demands. -/
theorem Fields.toInstr_eq_ok {f : Fields} {i : Instr} :
    f.toInstr = .ok i ↔
      f.opcode = i.opcode ∧ i.params.map Prod.snd = [f.m1, f.m2, f.m3].take i.params.length := by
  constructor
  · intro h
    refine ⟨(Fields.toInstr_opcode h).symm, ?_⟩
    unfold Fields.toInstr at h
    split at h <;> cases h <;> rfl
  · rintro ⟨hop, hmodes⟩
    cases i <;> simp_all [Fields.toInstr, Instr.opcode, Instr.params]

/-- R67, R69: each of the nine opcodes selects an instruction. -/
theorem Fields.toInstr_of_opcode_mem {f : Fields} (h : f.opcode ∈ [1, 2, 3, 4, 5, 6, 7, 8, 99]) :
    ∃ i, f.toInstr = .ok i := by
  obtain ⟨op, m1, m2, m3⟩ := f
  fin_cases h <;> exact ⟨_, rfl⟩

/-- The first `n` of the three mode fields, by the weights of their digits. -/
theorem take_fields_eq_map {α : Type} {n : Nat} (hn : n ≤ 3) (d : Nat → α) :
    [d 2, d 3, d 4].take n = (List.range n).map fun k => d (k + 2) := by
  interval_cases n <;> rfl

/-- Settles O18: the decoder's digits are the rule's, and a mode is determined by its digit. -/
theorem decodeReadsExactlyItsDigits : Obligations.DecodeReadsExactlyItsDigits := by
  intro w i
  by_cases h0 : 0 ≤ w.toInt
  · have hop : w.toInt.toNat % 100 = i.opcode ↔ w.toInt % 100 = i.opcode := by omega
    have hfields := take_fields_eq_map i.params_length_le fun k => Mode.ofDigit (digit w.toInt.toNat k)
    rw [decode_nonnegative h0, Fields.toInstr_eq_ok, hop, hfields,
      ← (List.map_injective_iff.mpr Mode.toDigit_injective).eq_iff]
    simp [h0, toDigit_ofDigit_digit h0, Function.comp_def]
  · simp [decode_negative (not_le.mp h0), h0]

/-- Settles O19: the two words have the same opcode and the same demanded mode digits. -/
theorem undemandedDigitsAreIgnored : Obligations.UndemandedDigitsAreIgnored := by
  intro w w' i h h0 hlow
  obtain ⟨-, hop, hmodes⟩ := (decodeReadsExactlyItsDigits w i).mp h
  refine (decodeReadsExactlyItsDigits w' i).mpr ⟨h0, ?_, ?_⟩
  · have hdvd : (100 : Int) ∣ 10 ^ (2 + i.params.length) := pow_dvd_pow 10 (Nat.le_add_right 2 _)
    rw [← hop, ← Int.emod_emod_of_dvd _ hdvd, hlow, Int.emod_emod_of_dvd _ hdvd]
  · rw [hmodes]
    refine List.map_congr_left fun k hk => (digitOf_congr ?_ hlow).symm
    have := List.mem_range.mp hk
    omega

/-- Settles O16: the digits of each word are those of its instruction. -/
theorem specWordsDecode : Obligations.SpecWordsDecode := by
  refine ⟨?_, ?_, ?_, ?_, ?_, ?_, ?_, ?_, ?_, ?_, ?_⟩ <;>
    exact (decodeReadsExactlyItsDigits _ _).mpr (by decide)

/-! ## The canonical word -/

theorem canonicalWord (i : Instr) : Laws.CanonicalWord.Statement i := by
  cases i with
  | add a b dst => exact Laws.CanonicalWord.add a b dst
  | mul a b dst => exact Laws.CanonicalWord.mul a b dst
  | input dst => exact Laws.CanonicalWord.input dst
  | output a => exact Laws.CanonicalWord.output a
  | jnz a target => exact Laws.CanonicalWord.jnz a target
  | jz a target => exact Laws.CanonicalWord.jz a target
  | lt a b dst => exact Laws.CanonicalWord.lt a b dst
  | eq a b dst => exact Laws.CanonicalWord.eq a b dst
  | halt => exact Laws.CanonicalWord.halt

theorem modeDigitAt_lt (i : Instr) (k : Nat) : modeDigitAt i k < 10 := by
  unfold modeDigitAt
  split
  · exact Mode.toDigit_lt _
  · decide

theorem modeDigitAt_of_lt {i : Instr} {k : Nat} (hk : k < i.params.length) :
    modeDigitAt i k = i.params[k].2.toDigit := by
  simp [modeDigitAt, List.getElem?_eq_getElem hk]

/-- The demanded mode digits, in order, are those at the indices below the number of parameters. -/
theorem map_toDigit_params (i : Instr) :
    i.params.map (fun p => (p.2.toDigit : Int)) =
      (List.range i.params.length).map fun k => (modeDigitAt i k : Int) := by
  refine List.ext_getElem (by simp) fun k hk _ => ?_
  rw [List.length_map] at hk
  simp [modeDigitAt_of_lt hk]

/-- R73: the value of the canonical word. -/
theorem encode_toInt (i : Instr) : (encode i).toInt =
    i.opcode + 100 * modeDigitAt i 0 + 1000 * modeDigitAt i 1 + 10000 * modeDigitAt i 2 := by
  rw [(canonicalWord i).1]
  cases i <;> simp [Instr.params, modeDigits, modeDigitAt] <;> ring

/-- R73: the mode digits of the canonical word. -/
theorem digitOf_encode (i : Instr) {k : Nat} (hk : k < 3) : digitOf (encode i) (k + 2) = modeDigitAt i k := by
  have hop := i.opcode_lt
  have h0 := modeDigitAt_lt i 0; have h1 := modeDigitAt_lt i 1; have h2 := modeDigitAt_lt i 2
  rw [digitOf, encode_toInt]
  interval_cases k <;> omega

/-- Settles O17: the canonical word has the opcode and the demanded mode digits of its instruction. -/
theorem decodeOfEncodeIsTheInstruction : Obligations.DecodeOfEncodeIsTheInstruction := by
  intro i
  have hop := i.opcode_lt
  refine (decodeReadsExactlyItsDigits _ i).mpr ⟨?_, ?_, ?_⟩
  · rw [encode_toInt]; omega
  · rw [encode_toInt]; omega
  · rw [map_toDigit_params]
    refine List.map_congr_left fun k hk => (digitOf_encode i ?_).symm
    exact (List.mem_range.mp hk).trans_le i.params_length_le

/-! ## The legal words -/

/-- R64: the modes of a legal read parameter. -/
def readModes : List Mode := [.position, .immediate]

theorem Mode.legalRead_iff_mem {m : Mode} : m.legalRead = true ↔ m ∈ readModes := by
  cases m <;> simp [Mode.legalRead, readModes]

theorem Mode.legalRead_iff_toDigit {m : Mode} : m.legalRead = true ↔ m.toDigit ≤ 1 := by
  cases m <;> simp [Mode.legalRead, Mode.toDigit]

theorem Mode.legalWrite_iff_toDigit {m : Mode} : m.legalWrite = true ↔ m.toDigit = 0 := by
  cases m <;> simp [Mode.legalWrite, Mode.toDigit]

/-- R72: the conditions on the opcode and the mode digits of a legal word. -/
def LegalDigits (w : Word) : Prop :=
  ((w.toInt % 100 = 1 ∨ w.toInt % 100 = 2 ∨ w.toInt % 100 = 7 ∨ w.toInt % 100 = 8) ∧
      digitOf w 2 ≤ 1 ∧ digitOf w 3 ≤ 1 ∧ digitOf w 4 = 0) ∨
    (w.toInt % 100 = 3 ∧ digitOf w 2 = 0) ∨
    (w.toInt % 100 = 4 ∧ digitOf w 2 ≤ 1) ∨
    ((w.toInt % 100 = 5 ∨ w.toInt % 100 = 6) ∧ digitOf w 2 ≤ 1 ∧ digitOf w 3 ≤ 1) ∨
    w.toInt % 100 = 99

/-- R72: a legal word has one of the nine opcodes, so it decodes. -/
theorem LegalDigits.exists_decode {w : Word} (h0 : 0 ≤ w.toInt) (h : LegalDigits w) : ∃ i, decode w = .ok i := by
  rw [decode_nonnegative h0]
  refine Fields.toInstr_of_opcode_mem ?_
  simp only [List.mem_cons, List.not_mem_nil, or_false]
  unfold LegalDigits at h
  omega

/-- R72: the modes of a decoded instruction are legal exactly when the digits of its word are. -/
theorem wf_iff_legalDigits {w : Word} {i : Instr} (h : decode w = .ok i) : i.wf = true ↔ LegalDigits w := by
  obtain ⟨-, hop, hmodes⟩ := (decodeReadsExactlyItsDigits w i).mp h
  unfold LegalDigits
  cases i with
  | add a b dst | mul a b dst | lt a b dst | eq a b dst =>
    obtain ⟨ha, hb, hdst⟩ : (a.toDigit : Int) = digitOf w 2 ∧ (b.toDigit : Int) = digitOf w 3 ∧
        (dst.toDigit : Int) = digitOf w 4 := by simpa [Instr.params, List.range_succ] using hmodes
    simp only [Instr.wf, Bool.and_eq_true, Mode.legalRead_iff_toDigit, Mode.legalWrite_iff_toDigit, hop, Instr.opcode]
    omega
  | jnz a target | jz a target =>
    obtain ⟨ha, ht⟩ : (a.toDigit : Int) = digitOf w 2 ∧ (target.toDigit : Int) = digitOf w 3 := by
      simpa [Instr.params, List.range_succ] using hmodes
    simp only [Instr.wf, Bool.and_eq_true, Mode.legalRead_iff_toDigit, hop, Instr.opcode]
    omega
  | input dst =>
    have hdst : (dst.toDigit : Int) = digitOf w 2 := by simpa [Instr.params] using hmodes
    simp only [Instr.wf, Mode.legalWrite_iff_toDigit, hop, Instr.opcode]
    omega
  | output a =>
    have ha : (a.toDigit : Int) = digitOf w 2 := by simpa [Instr.params] using hmodes
    simp only [Instr.wf, Mode.legalRead_iff_toDigit, hop, Instr.opcode]
    omega
  | halt => simp [Instr.wf, hop, Instr.opcode]

/-- Settles O20: a word with legal digits decodes, and what it decodes to is legal by those digits. -/
theorem legalWordsAreThoseOfTheRule : Obligations.LegalWordsAreThoseOfTheRule := by
  intro w
  constructor
  · rintro ⟨i, hi, hwf⟩
    exact ⟨decode_ok_nonnegative hi, (wf_iff_legalDigits hi).mp hwf⟩
  · rintro ⟨h0, hlegal⟩
    obtain ⟨i, hi⟩ := LegalDigits.exists_decode h0 hlegal
    exact ⟨i, hi, (wf_iff_legalDigits hi).mpr hlegal⟩

/-- R72: the legal instructions, in the order in which R73 lists their words. -/
def legalInstrs : List Instr :=
  ([.add, .mul, .lt, .eq].flatMap fun op : Mode → Mode → Mode → Instr =>
      readModes.flatMap fun b => readModes.map fun a => op a b .position) ++
    .input .position :: readModes.map .output ++
    ([.jnz, .jz].flatMap fun op : Mode → Mode → Instr =>
      readModes.flatMap fun target => readModes.map fun a => op a target) ++
    [.halt]

theorem wf_iff_mem_legalInstrs {i : Instr} : i.wf = true ↔ i ∈ legalInstrs := by
  cases i <;> simp [Instr.wf, legalInstrs, Mode.legalRead_iff_mem, Mode.legalWrite_iff, and_assoc, and_left_comm,
    eq_comm (b := Mode.position)]

/-- Settles O21, by the list of the legal instructions. -/
theorem canonicalLegalWordsAreTwentyEight : Obligations.CanonicalLegalWordsAreTwentyEight := by
  refine ⟨encode_toInt, fun w => ?_⟩
  simp only [wf_iff_mem_legalInstrs]
  exact List.mem_map.symm

/-! ## The fault of an illegal mode -/

theorem modeFault_eq_none {k : ParamKind} {m : Mode} : modeFault k m = none ↔ checkMode k m = .ok () := by
  cases m <;> cases k <;> simp [modeFault, checkMode]

theorem modeFault_eq_some {k : ParamKind} {m : Mode} {r : FaultReason} :
    modeFault k m = some r ↔ checkMode k m = .error r := by
  cases m <;> cases k <;> simp [modeFault, checkMode]

/-- R84: where the mode check faults, the cycle ends in that fault before it resolves an operand. -/
theorem exec_of_modeCheck_error {i : Instr} {s : State} {r : FaultReason} (h : modeCheck i.params = .error r) :
    exec i s = .next (s.takeFault r) := by
  cases i with
  | add a b dst | mul a b dst | lt a b dst | eq a b dst =>
    simp_all [exec, execAdd, execMul, execLt, execEq, operandsR2W, Instr.params]
  | jnz a target | jz a target => simp_all [exec, execJnz, execJz, operandsR2, Instr.params]
  | input dst => simp_all [exec, execInput, operandsW1, Instr.params]
  | output a => simp_all [exec, execOutput, operandsR1, Instr.params]
  | halt => simp [Instr.params, modeCheck] at h

/-- Settles O24: the first illegal parameter decides the mode check, and the mode check decides the cycle. -/
theorem firstIllegalModeFaults : Obligations.FirstIllegalModeFaults := by
  intro i s before after k m r hparams hbefore hm
  refine exec_of_modeCheck_error (modeCheck_eq_error.mpr ⟨before, k, m, after, hparams, ?_, modeFault_eq_some.mp hm⟩)
  exact fun p hp => modeFault_eq_none.mp (hbefore p hp)

end Sys2Proof
end

section
/-!
PROOFS. The execution cycle: what an enabled cycle runs, answers and commits, and that it is the pseudocode of R94.
-/

namespace Sys2Proof.Machine

open Sys2Proof.Rules

/-! ## What an enabled cycle runs -/

/-- Settles O12, by the fetch and the decoding of the word at IP. -/
theorem stepRunsTheDecodedInstruction : Obligations.StepRunsTheDecodedInstruction := fun _ _ _ => step_eq_exec

/-- R40, R152: an address outside memory has no word. -/
theorem word?_eq_none_of_outside {s : State} {a : Int} (h : outside s a = true) : s.mem.word? a = none := by
  rw [Memory.word?_eq_none]
  simp only [outside, Bool.or_eq_true, decide_eq_true_eq] at h
  omega

/-- Settles O13: there is no word to fetch. -/
theorem fetchOutsideMemoryFaults : Obligations.FetchOutsideMemoryFaults := by
  intro s hr hout
  rw [step_running hr, fetchInstr_eq_error.mpr (.inl ⟨word?_eq_none_of_outside hout, rfl⟩)]

/-- The word that the host gives is the one that `decodeTableWord` decodes. -/
theorem decodeTableWord_eq_some {nbits w : Nat} {i : Instr} :
    decodeTableWord nbits w = some i ↔ decode (BitVec.ofNat 64 (w % 2 ^ nbits)) = .ok i := by
  unfold decodeTableWord
  cases decode (BitVec.ofNat 64 (w % 2 ^ nbits)) <;> simp

/-- The word at IP after the host's placing. -/
theorem withFetchWord_word? {s : State} (nbits w : Nat) (h : s.mem.wf = true) :
    (s.withFetchWord nbits w).mem.word? (s.withFetchWord nbits w).ip.toInt =
      some (BitVec.ofNat 64 (w % 2 ^ nbits)) := by
  simp only [State.withFetchWord, placeInstruction, placeSite_toInt]
  exact (Memory.placeWords_spec h).2

/-- Settles O15: the placed word is the one at IP, in a `Running` state. -/
theorem placedInstructionRunsNext : Obligations.PlacedInstructionRunsNext := fun _ nbits w _ hwf hi =>
  step_eq_exec rfl (withFetchWord_word? nbits w hwf) (decodeTableWord_eq_some.mp hi)

/-! ## What a cycle answers -/

/-- R80, R160: a cycle that leaves `Running` by a fault has set `FAULT`. -/
theorem step_faultReg {s t : State} (hr : s.engine = .running) (h : step s = .next t) (ht : t.engine = .faulted) :
    t.faultReg ≠ none := by
  rcases step_cases hr h with ⟨i, -, hexec⟩ | ⟨r, rfl, -⟩
  · rcases exec_cases hexec with ⟨r, rfl⟩ | ⟨-, -, -, ⟨hengine, -⟩ | ⟨-, rfl⟩⟩
    · simp
    · simp [hengine, hr] at ht
    · simp at ht
  · simp

/-- Settles O7: every step has a next state, and in a `Running` state it gives the reason of a fault. -/
theorem stepAlwaysAnswersAState : Obligations.StepAlwaysAnswersAState := by
  intro s
  obtain ⟨t, h⟩ := step_next s
  exact ⟨t, h, fun hr ht => step_faultReg hr h ht⟩

/-! ## What a cycle commits -/

/-- R90: the advance of IP, as the rules write it. -/
theorem State.advance_eq (s : State) (n : Nat) : s.advance n = { s with ip := Word.ofInt (s.ip.toInt + n) } := by
  rw [State.advance, advance_eq_ofInt]

/-- R120: what `jnz` commits, as the rules write it. -/
theorem jnz_eq (s : State) (a target : Word) : (if isZero a then s.advance 3 else s.jump target) =
    { s with ip := if a.toInt ≠ 0 then target else Word.ofInt (s.ip.toInt + 3) } := by
  by_cases h : a.toInt = 0 <;> simp [isZero, h, State.advance_eq, State.jump]

/-- R121: what `jz` commits, as the rules write it. -/
theorem jz_eq (s : State) (a target : Word) : (if isZero a then s.jump target else s.advance 3) =
    { s with ip := if a.toInt = 0 then target else Word.ofInt (s.ip.toInt + 3) } := by
  by_cases h : a.toInt = 0 <;> simp [isZero, h, State.advance_eq, State.jump]

/-- R130, R132: what `lt` writes, as the rules write it. -/
theorem aluLt_eq_ofInt (a b : Word) : aluLt a b = Word.ofInt (if a.toInt < b.toInt then 1 else 0) := by
  by_cases h : a.toInt < b.toInt <;> simp [aluLt, truthWord, h]

/-- R131, R132: what `eq` writes, as the rules write it. -/
theorem aluEq_eq_ofInt (a b : Word) : aluEq a b = Word.ofInt (if a.toInt = b.toInt then 1 else 0) := by
  by_cases h : a.toInt = b.toInt <;> simp [aluEq, truthWord, h]

/-- R100, R101, R130, R131: the one write of a format `R2W` instruction and its advance, as the rule states them. -/
theorem commitsWrite_of_operands {s : State} {m1 m2 m3 : Mode} {a b : Word} {d : Nat} {f : Int → Int → Int}
    (ho : operandsR2W m1 m2 m3 s = .ok (a, b, d)) (hf : fits (f a.toInt b.toInt) = true) :
    CommitsWrite m1 m2 f s ((s.store d (Word.ofInt (f a.toInt b.toInt))).advance 4) := by
  obtain ⟨-, ha, hb, hd⟩ := operandsR2W_eq_ok.mp ho
  exact ⟨a, b, d, readsAs_iff_readParam.mpr ha, readsAs_iff_readParam.mpr hb, hd, hf, State.advance_eq _ 4⟩

/-- R132: 0 and 1 are words. -/
theorem fits_truth (p : Prop) [Decidable p] : fits (if p then 1 else 0) = true := by
  by_cases h : p <;> simp [fits, h]

/-- R89: what the rest of a cycle commits, instruction by instruction, where it does not fault. -/
theorem exec_commits {i : Instr} {s t : State} (h : exec i s = .next t) :
    (∃ r, t = s.takeFault r) ∨ Commits i s t := by
  cases i with
  | add m1 m2 m3 =>
    rcases execAdd_cases h with ⟨a, b, d, ho, hf, rfl⟩ | ⟨r, -, ht⟩
    · exact .inr (commitsWrite_of_operands ho hf)
    · exact .inl ⟨r, ht⟩
  | mul m1 m2 m3 =>
    rcases execMul_cases h with ⟨a, b, d, ho, hf, rfl⟩ | ⟨r, -, ht⟩
    · exact .inr (commitsWrite_of_operands ho hf)
    · exact .inl ⟨r, ht⟩
  | lt m1 m2 m3 =>
    rcases execLt_cases h with ⟨a, b, d, ho, rfl⟩ | ⟨r, -, ht⟩
    · rw [aluLt_eq_ofInt]
      exact .inr (commitsWrite_of_operands (f := fun a b => if a < b then 1 else 0) ho (fits_truth _))
    · exact .inl ⟨r, ht⟩
  | eq m1 m2 m3 =>
    rcases execEq_cases h with ⟨a, b, d, ho, rfl⟩ | ⟨r, -, ht⟩
    · rw [aluEq_eq_ofInt]
      exact .inr (commitsWrite_of_operands (f := fun a b => if a = b then 1 else 0) ho (fits_truth _))
    · exact .inl ⟨r, ht⟩
  | input m1 =>
    rcases execInput_cases h with ⟨d, x, rest, ho, hq, rfl⟩ | ⟨r, -, ht⟩
    · obtain ⟨-, hd⟩ := operandsW1_eq_ok.mp ho
      exact .inr ⟨x, d, hq, hd, State.advance_eq _ 2⟩
    · exact .inl ⟨r, ht⟩
  | output m1 =>
    rcases execOutput_cases h with ⟨a, ho, rfl⟩ | ⟨r, -, ht⟩
    · exact .inr ⟨a, readsAs_iff_readParam.mpr (operandsR1_eq_ok.mp ho), State.advance_eq _ 2⟩
    · exact .inl ⟨r, ht⟩
  | jnz m1 m2 =>
    rcases execJnz_cases h with ⟨a, target, ho, rfl⟩ | ⟨r, -, ht⟩
    · obtain ⟨ha, htarget⟩ := operandsR2_eq_ok.mp ho
      exact .inr ⟨a, target, readsAs_iff_readParam.mpr ha, readsAs_iff_readParam.mpr htarget, jnz_eq s a target⟩
    · exact .inl ⟨r, ht⟩
  | jz m1 m2 =>
    rcases execJz_cases h with ⟨a, target, ho, rfl⟩ | ⟨r, -, ht⟩
    · obtain ⟨ha, htarget⟩ := operandsR2_eq_ok.mp ho
      exact .inr ⟨a, target, readsAs_iff_readParam.mpr ha, readsAs_iff_readParam.mpr htarget, jz_eq s a target⟩
    · exact .inl ⟨r, ht⟩
  | halt => exact .inr (Host.Outcome.next.inj h).symm

/-- Settles O46: a step enters a fault at the fetch, or runs the decoded instruction, which commits or faults. -/
theorem cyclesCommitAllOrNothing : Obligations.CyclesCommitAllOrNothing := by
  intro s t hr h
  rcases step_cases hr h with ⟨i, hf, hexec⟩ | ⟨r, ht, -⟩
  · obtain ⟨w, hw, hi⟩ := fetchInstr_eq_ok.mp hf
    exact (exec_commits hexec).imp_right fun hcommits => ⟨w, i, hw, hi, hcommits⟩
  · exact .inl ⟨r, ht⟩

/-! ## Phases in sequence -/

/-- Two cycles with the same first phase agree where they agree on each value that it answers. -/
theorem Cycle.bind_congr_of_ok {α β : Type} {c : Cycle α} {f g : α → Cycle β}
    (h : ∀ a, c = .ok a → f a = g a) : (c >>= f) = (c >>= g) := by
  cases c with
  | ok a => exact h a rfl
  | error r => rfl

end Sys2Proof.Machine

namespace Sys2Proof.Pseudocode

open Sys2Proof.Machine Sys2Proof.Rules

/-! ## The pseudocode's loops and the model's phases -/

/-- R83: by the pseudocode's opcode and mode digits, the parameters from the `k`-th on have the kinds and the modes of
the list. -/
def Demands (opcode : Int) (m : Nat → Int) : Nat → List (ParamKind × Mode) → Prop
  | _, [] => True
  | k, (kind, mode) :: rest =>
    isWrite opcode k = decide (kind = .write) ∧ m k = mode.toDigit ∧ Demands opcode m (k + 1) rest

/-- R12, R41: the pseudocode's read is `MemRead`, its word taken as an integer. -/
theorem read_eq_memRead (s : State) (a : Int) : read s a = BitVec.toInt <$> memRead s a := by
  unfold read memRead
  cases s.mem.word? a <;> rfl

/-- R71, R84: the loop of phase 3 is the model's mode check. -/
theorem modeLoop_eq_modeCheck {opcode : Int} {m : Nat → Int} {k : Nat} {ps : List (ParamKind × Mode)}
    (h : Demands opcode m k ps) : modeLoop opcode m ps.length k = modeCheck ps := by
  induction ps generalizing k with
  | nil => rfl
  | cons p rest ih =>
    obtain ⟨kind, mode⟩ := p
    obtain ⟨hkind, hmode, hrest⟩ := h
    rw [List.length_cons, modeLoop, ih hrest, modeCheck_cons, hkind, hmode]
    cases mode with
    | position => simp [checkMode, Mode.toDigit]
    | immediate => cases kind <;> simp [checkMode, Mode.toDigit]
    | reserved d =>
      rw [if_pos (by simp only [Mode.toDigit]; omega)]
      rfl

/-- R85: a read parameter in a legal mode resolves to `RD(i)`. -/
theorem resolve_eq_readParam {s : State} {opcode : Int} {m : Nat → Int} {i : Nat} {mode : Mode}
    (hkind : isWrite opcode i = false) (hmode : m i = mode.toDigit) (hlegal : checkMode .read mode = .ok ()) :
    resolve s opcode m i = BitVec.toInt <$> readParam s i mode := by
  unfold resolve readParam rawParam
  rw [read_eq_memRead, hkind, hmode]
  cases memRead s (s.ip.toInt + i) with
  | error r => rfl
  | ok p =>
    cases mode with
    | position => exact read_eq_memRead s p.toInt
    | immediate => rfl
    | reserved d => simp [checkMode] at hlegal

/-- R86: a write parameter resolves to `WA(i)`. -/
theorem resolve_eq_writeAddr {s : State} {opcode : Int} {m : Nat → Int} {i : Nat} (hkind : isWrite opcode i = true) :
    resolve s opcode m i = (fun d : Nat => (d : Int)) <$> writeAddr s i := by
  unfold resolve writeAddr rawParam
  rw [read_eq_memRead, hkind]
  cases memRead s (s.ip.toInt + i) with
  | error r => rfl
  | ok p =>
    by_cases hp : s.mem.valid p.toInt
    · have hin : ¬ (p.toInt < 0 ∨ (s.mem.len.val : Int) ≤ p.toInt) := by omega
      simp [memWriteCheck, if_pos hp, hin, Int.toNat_of_nonneg hp.1]
    · have hout : p.toInt < 0 ∨ (s.mem.len.val : Int) ≤ p.toInt := by unfold Memory.valid at hp; omega
      simp [memWriteCheck, if_neg hp, hout]

/-- R87: the loop of phase 4 resolves one parameter and goes on to the next. -/
theorem operandLoop_succ (s : State) (opcode : Int) (m : Nat → Int) (left i : Nat) (v : Nat → Int) :
    operandLoop s opcode m (left + 1) i v =
      resolve s opcode m i >>= fun x =>
        operandLoop s opcode m left (i + 1) (fun j => if j = i then x else v j) := by
  rw [operandLoop]
  cases resolve s opcode m i <;> rfl

/-- Phases 3 and 4 for `n` parameters: the values `v`. -/
def operands (s : State) (opcode : Int) (m : Nat → Int) (n : Nat) : Machine.Cycle (Nat → Int) :=
  modeLoop opcode m n 1 >>= fun _ => operandLoop s opcode m n 1 (fun _ => 0)

/-- `v[1]` alone. -/
def values1 (x : Int) : Nat → Int := fun j => if j = 1 then x else 0

/-- `v[1]` and `v[2]`. -/
def values2 (x y : Int) : Nat → Int := fun j => if j = 2 then y else values1 x j

/-- `v[1]`, `v[2]` and `v[3]`. -/
def values3 (x y z : Int) : Nat → Int := fun j => if j = 3 then z else values2 x y j

/-! The pseudocode's phases 3 and 4 answer the operands of the model's format (R65), as integers. -/

section Formats

variable {s : State} {opcode : Int} {m : Nat → Int} {m1 m2 m3 : Mode}

theorem operands_eq_operandsR2W (h : Demands opcode m 1 [(.read, m1), (.read, m2), (.write, m3)]) :
    operands s opcode m 3 = (fun o => values3 o.1.toInt o.2.1.toInt o.2.2) <$> operandsR2W m1 m2 m3 s := by
  have hcheck : modeLoop opcode m 3 1 = _ := modeLoop_eq_modeCheck h
  obtain ⟨hk1, hm1, hk2, hm2, hk3, -, -⟩ := h
  rw [operands, operandsR2W, hcheck, map_bind]
  refine Cycle.bind_congr_of_ok fun _ hok => ?_
  have hlegal := modeCheck_eq_ok.mp hok
  simp only [operandLoop_succ, resolve_eq_readParam hk1 hm1 (hlegal (.read, m1) (by simp)),
    resolve_eq_readParam hk2 hm2 (hlegal (.read, m2) (by simp)), resolve_eq_writeAddr hk3, bind_map_left, map_bind]
  rfl

theorem operands_eq_operandsR2 (h : Demands opcode m 1 [(.read, m1), (.read, m2)]) :
    operands s opcode m 2 = (fun o => values2 o.1.toInt o.2.toInt) <$> operandsR2 m1 m2 s := by
  have hcheck : modeLoop opcode m 2 1 = _ := modeLoop_eq_modeCheck h
  obtain ⟨hk1, hm1, hk2, hm2, -⟩ := h
  rw [operands, operandsR2, hcheck, map_bind]
  refine Cycle.bind_congr_of_ok fun _ hok => ?_
  have hlegal := modeCheck_eq_ok.mp hok
  simp only [operandLoop_succ, resolve_eq_readParam hk1 hm1 (hlegal (.read, m1) (by simp)),
    resolve_eq_readParam hk2 hm2 (hlegal (.read, m2) (by simp)), bind_map_left, map_bind]
  rfl

theorem operands_eq_operandsR1 (h : Demands opcode m 1 [(.read, m1)]) :
    operands s opcode m 1 = (fun a => values1 a.toInt) <$> operandsR1 m1 s := by
  have hcheck : modeLoop opcode m 1 1 = _ := modeLoop_eq_modeCheck h
  obtain ⟨hk1, hm1, -⟩ := h
  rw [operands, operandsR1, hcheck, map_bind]
  refine Cycle.bind_congr_of_ok fun _ hok => ?_
  rw [operandLoop_succ, resolve_eq_readParam hk1 hm1 (modeCheck_eq_ok.mp hok (.read, m1) (by simp)), bind_map_left]
  exact (map_eq_pure_bind _ _).symm

theorem operands_eq_operandsW1 (h : Demands opcode m 1 [(.write, m1)]) :
    operands s opcode m 1 = (fun d => values1 (d : Nat)) <$> operandsW1 m1 s := by
  have hcheck : modeLoop opcode m 1 1 = _ := modeLoop_eq_modeCheck h
  obtain ⟨hk1, -, -⟩ := h
  rw [operands, operandsW1, hcheck, map_bind]
  refine Cycle.bind_congr_of_ok fun _ _ => ?_
  rw [operandLoop_succ, resolve_eq_writeAddr hk1, bind_map_left]
  exact (map_eq_pure_bind _ _).symm

end Formats

/-! ## The pseudocode's `case opcode of` and the meanings -/

/-! For each opcode the pseudocode's `case` commits, or raises, what the instruction's meaning does. -/

section Execute

variable (s : State) (a b target : Word) (d : Nat)

/-- R42, R90: the pseudocode's write and advance are the model's. -/
theorem commitWrite_eq (r : Int) (n : Nat) : commitWrite s d r n = (s.store d (Word.ofInt r)).advance n := by
  rw [State.advance_eq]
  rfl

/-- R102: an exact result commits the write and the advance by 4, one that does not fit is `Overflow`. -/
theorem commit_or_overflow (r : Int) : (if fits r then .ok (commitWrite s d r 4) else .error .overflow) =
    exactOrOverflow r >>= fun v => pure ((s.store d v).advance 4) := by
  unfold exactOrOverflow
  split
  · exact congrArg _ (commitWrite_eq s d r 4)
  · rfl

theorem execute_add : execute s 1 (values3 a.toInt b.toInt d) =
    aluAdd a b >>= fun r => pure ((s.store d r).advance 4) := commit_or_overflow s d _

theorem execute_mul : execute s 2 (values3 a.toInt b.toInt d) =
    aluMul a b >>= fun r => pure ((s.store d r).advance 4) := commit_or_overflow s d _

theorem execute_input : execute s 3 (values1 d) =
    nextInput s >>= fun o => pure ((o.2.store d o.1).advance 2) := by
  unfold nextInput
  cases hq : s.inQ with
  | nil => simp [execute, hq]
  | cons x rest => simp [execute, hq, values1, commitWrite, State.advance_eq, State.store]

theorem execute_output : execute s 4 (values1 a.toInt) = .ok ((s.emit a).advance 2) := by
  simp [execute, values1, State.advance_eq, State.emit]

theorem execute_jnz : execute s 5 (values2 a.toInt target.toInt) =
    .ok (if isZero a then s.advance 3 else s.jump target) := by
  rw [jnz_eq]
  simp [execute, values2, values1]

theorem execute_jz : execute s 6 (values2 a.toInt target.toInt) =
    .ok (if isZero a then s.jump target else s.advance 3) := by
  rw [jz_eq]
  simp [execute, values2, values1]

theorem execute_lt : execute s 7 (values3 a.toInt b.toInt d) = .ok ((s.store d (aluLt a b)).advance 4) := by
  rw [aluLt_eq_ofInt]
  exact congrArg _ (commitWrite_eq s d _ 4)

theorem execute_eq : execute s 8 (values3 a.toInt b.toInt d) = .ok ((s.store d (aluEq a b)).advance 4) := by
  rw [aluEq_eq_ofInt]
  exact congrArg _ (commitWrite_eq s d _ 4)

end Execute

/-- R81, R89: a cycle of the model ends as the pseudocode does, where the pseudocode's `v` are the values that the model
resolves and its `case` does with them what the model does. -/
theorem endCycle_eq_execute {α : Type} {s : State} {opcode : Int} {m : Nat → Int} {n : Nat} {c : Machine.Cycle α}
    {v : α → Nat → Int} {f : α → Machine.Cycle State} (ho : operands s opcode m n = v <$> c)
    (hf : ∀ o, execute s opcode (v o) = f o) :
    endCycle s (c >>= f) = endCycle s (operands s opcode m n >>= execute s opcode) := by
  rw [ho, bind_map_left]
  exact congrArg (endCycle s) (bind_congr hf).symm

/-- R81: phases 3 to 6 of the pseudocode's cycle, for the instruction's opcode and modes, are its meaning. -/
theorem exec_eq_execute {i : Instr} {m : Nat → Int} (h : Demands i.opcode m 1 i.params) (s : State) :
    exec i s = endCycle s (operands s i.opcode m i.params.length >>= execute s i.opcode) := by
  cases i with
  | add m1 m2 m3 => exact endCycle_eq_execute (operands_eq_operandsR2W h) fun ⟨a, b, d⟩ => execute_add s a b d
  | mul m1 m2 m3 => exact endCycle_eq_execute (operands_eq_operandsR2W h) fun ⟨a, b, d⟩ => execute_mul s a b d
  | input m1 => exact endCycle_eq_execute (operands_eq_operandsW1 h) fun d => execute_input s d
  | output m1 => exact endCycle_eq_execute (operands_eq_operandsR1 h) fun a => execute_output s a
  | jnz m1 m2 => exact endCycle_eq_execute (operands_eq_operandsR2 h) fun ⟨a, target⟩ => execute_jnz s a target
  | jz m1 m2 => exact endCycle_eq_execute (operands_eq_operandsR2 h) fun ⟨a, target⟩ => execute_jz s a target
  | lt m1 m2 m3 => exact endCycle_eq_execute (operands_eq_operandsR2W h) fun ⟨a, b, d⟩ => execute_lt s a b d
  | eq m1 m2 m3 => exact endCycle_eq_execute (operands_eq_operandsR2W h) fun ⟨a, b, d⟩ => execute_eq s a b d
  | halt => rfl

/-! ## The pseudocode's FETCH and DECODE -/

/-- Phase 2: `m[1]`, `m[2]` and `m[3]`. -/
def modes (iw : Int) : Nat → Int := fun i =>
  if i = 1 then iw / 100 % 10 else if i = 2 then iw / 1000 % 10 else iw / 10000 % 10

/-- R82: an IP outside memory. -/
theorem phases_of_no_word {s : State} (h : s.mem.word? s.ip.toInt = none) : phases s = .error .outOfBounds := by
  simp [phases, read, h]

section Decode

variable {s : State} {w : Word}

/-- R63, R69: a word that is negative, or whose opcode has no row. -/
theorem phases_of_rejected (hw : s.mem.word? s.ip.toInt = some w)
    (h : w.toInt < 0 ∨ paramCount (w.toInt % 100) = none) : phases s = .error .unsupportedOpcode := by
  rcases h with h | h <;> simp [phases, read, hw, h]

/-- R83: a word whose opcode demands `n` parameters. -/
theorem phases_of_paramCount {n : Nat} (hw : s.mem.word? s.ip.toInt = some w) (h0 : 0 ≤ w.toInt)
    (hn : paramCount (w.toInt % 100) = some n) :
    phases s = operands s (w.toInt % 100) (modes w.toInt) n >>= execute s (w.toInt % 100) := by
  unfold operands modes
  simp only [phases, read, hw, not_lt.mpr h0, if_false, hn]
  generalize modeLoop _ _ n 1 = checked
  generalize operandLoop s _ _ n 1 _ = resolved
  cases checked <;> cases resolved <;> rfl

/-- R83: `n(opcode)` of an instruction. -/
theorem paramCount_opcode (i : Instr) : paramCount i.opcode = some i.params.length := by
  cases i <;> rfl

/-- R69, R83: a word that is not negative and whose opcode has a row decodes. -/
theorem exists_decode_of_paramCount {n : Nat} (h0 : 0 ≤ w.toInt) (h : paramCount (w.toInt % 100) = some n) :
    ∃ i, decode w = .ok i := by
  rw [decode_nonnegative h0]
  refine Fields.toInstr_of_opcode_mem ?_
  simp only [List.mem_cons, List.not_mem_nil, or_false]
  by_contra hnot
  rw [paramCount, if_neg (by omega), if_neg (by omega), if_neg (by omega), if_neg (by omega)] at h
  exact absurd h nofun

/-- R62, R83: the digits of a word that decodes demand the parameters of its instruction. -/
theorem demands_of_decode {i : Instr} (h : decode w = .ok i) : Demands i.opcode (modes w.toInt) 1 i.params := by
  obtain ⟨-, -, hmodes⟩ := (decodeReadsExactlyItsDigits w i).mp h
  cases i <;> simp_all [Demands, Instr.params, Instr.opcode, isWrite, modes, digitOf, List.range_succ]

end Decode

/-- R89: how both cycles end. -/
theorem endCycle_phases (s : State) : endCycle s (phases s) = .next (cycle s) := by
  unfold cycle
  cases phases s <;> rfl

/-- Settles O55, phase by phase: the fetch and the decoder by what the word at IP is, the rest by `exec_eq_execute`. -/
theorem stepIsThePseudocodeCycle : Obligations.StepIsThePseudocodeCycle := by
  intro s hr
  rw [← endCycle_phases, step_running hr]
  cases hf : fetchInstr s with
  | ok i =>
    obtain ⟨w, hw, hi⟩ := fetchInstr_eq_ok.mp hf
    obtain ⟨h0, hop, -⟩ := (decodeReadsExactlyItsDigits w i).mp hi
    rw [phases_of_paramCount hw h0 (hop ▸ paramCount_opcode i), hop]
    exact exec_eq_execute (demands_of_decode hi) s
  | error r =>
    rcases fetchInstr_eq_error.mp hf with ⟨hnone, rfl⟩ | ⟨w, hw, ⟨e, he⟩, rfl⟩
    · rw [phases_of_no_word hnone]
      rfl
    · rw [phases_of_rejected hw]
      · rfl
      · by_contra! hnot
        obtain ⟨h0, hn⟩ := hnot
        obtain ⟨n, hn⟩ := Option.ne_none_iff_exists'.mp hn
        obtain ⟨i, hi⟩ := exists_decode_of_paramCount h0 hn
        simp [hi] at he

end Sys2Proof.Pseudocode
end

section
/-!
PROOFS. Arithmetic: what `add` and `mul` commit, their faults in the order tested, and the twin of an instruction with
parameter 1 made immediate. Each is proved once for the format `R2W`, whatever its ALU operation.
-/

namespace Sys2Proof.Machine

open Sys2Proof.Rules

/-! ## The format `R2W` -/

/-- R65, R81: a cycle of format `R2W` from MODECHECK on: `MEM[dst]` gets what `f` answers of `a` and `b`. -/
def execR2W (f : Word → Word → Cycle Word) (m1 m2 m3 : Mode) (s : State) : Host.Outcome State Fault Refusal :=
  endCycle s (operandsR2W m1 m2 m3 s >>= fun o => f o.1 o.2.1 >>= fun v => pure ((s.store o.2.2 v).advance 4))

theorem exec_add (m1 m2 m3 : Mode) (s : State) : exec (.add m1 m2 m3) s = execR2W aluAdd m1 m2 m3 s := rfl

theorem exec_mul (m1 m2 m3 : Mode) (s : State) : exec (.mul m1 m2 m3) s = execR2W aluMul m1 m2 m3 s := rfl

/-- R42, R90: the one write of the format and its advance, as the rules write them. -/
theorem State.store_advance_eq (s : State) (d : Nat) (v : Word) :
    (s.store d v).advance 4 = { s with mem := s.mem.set d v, ip := Word.ofInt (s.ip.toInt + 4) } :=
  State.advance_eq _ 4

section Format

variable {f : Word → Word → Cycle Word} {m1 m2 m3 : Mode} {a b v : Word} {d : Nat} {s t : State}

/-- R89: with all operands resolved and a result, the cycle completes. -/
theorem execR2W_completes (ha : ReadsAs s 1 m1 a) (hb : ReadsAs s 2 m2 b) (hd : WritesTo s 3 d)
    (hv : f a b = .ok v) : execR2W f m1 m2 .position s = .next ((s.store d v).advance 4) := by
  have ho : operandsR2W m1 m2 .position s = .ok (a, b, d) :=
    operandsR2W_eq_ok.mpr
      ⟨rfl, readsAs_iff_readParam.mp ha, readsAs_iff_readParam.mp hb, writesTo_iff_writeAddr.mp hd⟩
  simp [execR2W, ho, hv]

/-- R89: a cycle that does not fault has resolved its operands and has a result. -/
theorem execR2W_inversion (h : execR2W f m1 m2 m3 s = .next t) (ht : t.engine ≠ .faulted) :
    m3 = .position ∧ ∃ a b d v, ReadsAs s 1 m1 a ∧ ReadsAs s 2 m2 b ∧ WritesTo s 3 d ∧ f a b = .ok v ∧
      t = (s.store d v).advance 4 := by
  rcases endCycle_cases h with h | ⟨r, -, rfl⟩
  · obtain ⟨⟨a, b, d⟩, ho, h⟩ := Cycle.bind_eq_ok.mp h
    obtain ⟨v, hv, h⟩ := Cycle.bind_eq_ok.mp h
    obtain ⟨hm3, ha, hb, hd⟩ := operandsR2W_eq_ok.mp ho
    exact ⟨hm3, a, b, d, v, readsAs_iff_readParam.mpr ha, readsAs_iff_readParam.mpr hb,
      writesTo_iff_writeAddr.mpr hd, hv, (Except.ok.inj h).symm⟩
  · exact absurd rfl ht

end Format

/-- Settles O25: the operands resolve, and the sum is exact. -/
theorem addCompletes : Obligations.AddCompletes := by
  intro s m1 m2 a b d ha hb hd hfits
  rw [exec_add, execR2W_completes ha hb hd (exactOrOverflow_eq_ok.mpr ⟨hfits, rfl⟩), State.store_advance_eq]

/-- Settles O26: the operands resolve, and the product is exact. -/
theorem mulCompletes : Obligations.MulCompletes := by
  intro s m1 m2 a b d ha hb hd hfits
  rw [exec_mul, execR2W_completes ha hb hd (exactOrOverflow_eq_ok.mpr ⟨hfits, rfl⟩), State.store_advance_eq]

/-! ## The first of several faults -/

/-- R159: the fault of the first condition that holds, and the phases `c` if none does. -/
def raiseFirst {α : Type} : List (Bool × FaultReason) → Cycle α → Cycle α
  | [], c => c
  | (b, r) :: rest, c => if b then .error r else raiseFirst rest c

section RaiseFirst

variable {α β : Type} {b b' : Bool} {r : FaultReason} {tests tests' : List (Bool × FaultReason)} {c : Cycle α}

@[simp] theorem raiseFirst_nil : raiseFirst [] c = c := rfl

@[simp] theorem raiseFirst_true : raiseFirst ((true, r) :: tests) c = .error r := if_pos rfl

@[simp] theorem raiseFirst_false : raiseFirst ((false, r) :: tests) c = raiseFirst tests c :=
  if_neg Bool.false_ne_true

theorem raiseFirst_append : raiseFirst (tests ++ tests') c = raiseFirst tests (raiseFirst tests' c) := by
  induction tests with
  | nil => rfl
  | cons p rest ih =>
    obtain ⟨b, r⟩ := p
    cases b <;> simp [ih]

theorem raiseFirst_bind (f : α → Cycle β) : (raiseFirst tests c >>= f) = raiseFirst tests (c >>= f) := by
  induction tests with
  | nil => rfl
  | cons p rest ih =>
    obtain ⟨b, r⟩ := p
    cases b <;> simp [ih]

/-- A value goes on to the next phase behind the same conditions. -/
theorem raiseFirst_ok_bind (a : α) (f : α → Cycle β) :
    (raiseFirst tests (.ok a) >>= f) = raiseFirst tests (f a) := raiseFirst_bind f

/-- Two conditions with one reason, in one test or in two. -/
theorem raiseFirst_or :
    raiseFirst ((b || b', r) :: tests) c = raiseFirst ((b, r) :: (b', r) :: tests) c := by
  cases b <;> rfl

/-- R89, R159: the rules' outcome of a cycle is its end behind the conditions. -/
theorem settle_eq_endCycle (s t : State) : settle s tests t = endCycle s (raiseFirst tests (.ok t)) := by
  induction tests with
  | nil => rfl
  | cons p rest ih =>
    obtain ⟨b, r⟩ := p
    cases b with
    | true => rfl
    | false => exact ih

end RaiseFirst

/-! ## The phases as conditions and values -/

/-- R40: an address that is not outside memory has a word. -/
theorem word?_eq_cell {s : State} {a : Int} (h : outside s a = false) : s.mem.word? a = some (cell s a) := by
  have hv : 0 ≤ a ∧ a < (s.mem.len.val : Int) := by simpa [outside] using h
  simp [cell, Memory.word?_of_valid hv]

/-- R41, R152: `MemRead(a, 1)`. -/
theorem memRead_eq_raiseFirst (s : State) (a : Int) :
    memRead s a = raiseFirst [(outside s a, .outOfBounds)] (.ok (cell s a)) := by
  cases h : outside s a with
  | true => exact memRead_eq_error.mpr ⟨word?_eq_none_of_outside h, rfl⟩
  | false => exact memRead_eq_ok.mpr (word?_eq_cell h)

/-- R42, R152: the bound check of `MemWrite(a, 1, v)`. -/
theorem memWriteCheck_eq_raiseFirst (s : State) (a : Int) :
    memWriteCheck s a = raiseFirst [(outside s a, .outOfBounds)] (.ok a.toNat) := by
  cases h : outside s a with
  | true => exact memWriteCheck_eq_error.mpr ⟨word?_eq_none_of_outside h, rfl⟩
  | false =>
    have hv := Memory.word?_some_valid (word?_eq_cell h)
    exact memWriteCheck_eq_ok.mpr ⟨by omega, by omega⟩

theorem reservedDigit_reserved (k : Fin 8) : reservedDigit (Mode.reserved k).toDigit = true := by
  simp [reservedDigit, Mode.toDigit]

/-- R64, R71: the check of a read parameter's mode. -/
theorem checkMode_read_eq_raiseFirst (m : Mode) :
    checkMode .read m = raiseFirst [(reservedDigit m.toDigit, .unsupportedMode)] (.ok ()) := by
  cases m with
  | position | immediate => rfl
  | reserved k =>
    rw [reservedDigit_reserved]
    rfl

/-- R64, R71: the check of a write parameter's mode. -/
theorem checkMode_write_eq_raiseFirst (m : Mode) :
    checkMode .write m = raiseFirst [(reservedDigit m.toDigit, .unsupportedMode),
      (decide ((m.toDigit : Int) = 1), .invalidWriteMode)] (.ok ()) := by
  cases m with
  | position | immediate => rfl
  | reserved k =>
    rw [reservedDigit_reserved]
    rfl

/-- R85: `RD(i)` in a legal mode. -/
theorem readParam_eq_raiseFirst {s : State} {i : Nat} {m : Mode} (hm : checkMode .read m = .ok ()) :
    readParam s i m = raiseFirst [(readOutside s i m.toDigit, .outOfBounds)] (.ok (rd s i m.toDigit)) := by
  unfold readParam rawParam readOutside
  rw [memRead_eq_raiseFirst, raiseFirst_ok_bind, raiseFirst_or]
  cases m with
  | position => exact congrArg (raiseFirst [_]) (memRead_eq_raiseFirst s _)
  | immediate => rfl
  | reserved k => simp [checkMode] at hm

/-- R86: `WA(i)`. -/
theorem writeAddr_eq_raiseFirst (s : State) (i : Nat) :
    writeAddr s i = raiseFirst [(writeOutside s i, .outOfBounds)] (.ok (wa s i)) := by
  unfold writeAddr rawParam writeOutside
  rw [memRead_eq_raiseFirst, raiseFirst_ok_bind, raiseFirst_or, memWriteCheck_eq_raiseFirst]
  rfl

/-- R102: an exact result. -/
theorem exactOrOverflow_eq_raiseFirst (v : Int) :
    exactOrOverflow v = raiseFirst [(!fits v, .overflow)] (.ok (Word.ofInt v)) := by
  unfold exactOrOverflow
  cases fits v <;> rfl

/-! ## The rule of a format `R2W` instruction -/

/-- R62: the mode that the decoder reads in the digit of weight `10^k`. -/
def modeAt (w : Word) (k : Nat) : Mode := Mode.ofDigit (digit w.toInt.toNat k)

theorem toDigit_modeAt {w : Word} (h : 0 ≤ w.toInt) (k : Nat) : ((modeAt w k).toDigit : Int) = digitOf w k :=
  toDigit_ofDigit_digit h k

/-- R62, R67: a word with the two low digits `op` goes to the dispatch table with that opcode and its three modes. -/
theorem decode_eq_toInstr {w : Word} {op : Nat} (h0 : 0 ≤ w.toInt) (hop : w.toInt % 100 = op) :
    decode w = Fields.toInstr ⟨op, modeAt w 2, modeAt w 3, modeAt w 4⟩ := by
  have hop' : w.toInt.toNat % 100 = op := by omega
  rw [decode_nonnegative h0, hop']
  rfl

/-- R71: MODECHECK of the format `R2W` tests its conditions in the order of the parameters. -/
theorem modeCheck_eq_raiseFirst (m1 m2 m3 : Mode) :
    modeCheck [(.read, m1), (.read, m2), (.write, m3)] =
      raiseFirst [(reservedDigit m1.toDigit, .unsupportedMode), (reservedDigit m2.toDigit, .unsupportedMode),
        (reservedDigit m3.toDigit, .unsupportedMode), (decide ((m3.toDigit : Int) = 1), .invalidWriteMode)]
        (.ok ()) := by
  simp only [modeCheck_cons, checkMode_read_eq_raiseFirst, checkMode_write_eq_raiseFirst, raiseFirst_ok_bind,
    ← raiseFirst_append]
  rfl

/-- R87: OPERANDS of the format `R2W`, in legal modes, tests its conditions in the order of the parameters. -/
theorem operandsR2W_eq_modeCheck_bind (m1 m2 m3 : Mode) (s : State) :
    operandsR2W m1 m2 m3 s = modeCheck [(.read, m1), (.read, m2), (.write, m3)] >>= fun _ =>
      raiseFirst [(readOutside s 1 m1.toDigit, .outOfBounds), (readOutside s 2 m2.toDigit, .outOfBounds),
        (writeOutside s 3, .outOfBounds)] (.ok (rd s 1 m1.toDigit, rd s 2 m2.toDigit, wa s 3)) := by
  refine Cycle.bind_congr_of_ok fun _ hok => ?_
  have hlegal := modeCheck_eq_ok.mp hok
  rw [readParam_eq_raiseFirst (hlegal (.read, m1) (by simp)), raiseFirst_ok_bind,
    readParam_eq_raiseFirst (hlegal (.read, m2) (by simp)), raiseFirst_ok_bind, writeAddr_eq_raiseFirst,
    raiseFirst_ok_bind, ← raiseFirst_append, ← raiseFirst_append]
  rfl

/-- R71, R87: MODECHECK and OPERANDS of the instruction at IP test the conditions of the rule, in its order. -/
theorem operandsR2W_eq_raiseFirst {s : State} (hip : outside s s.ip.toInt = false) (h0 : 0 ≤ (instrWord s).toInt) :
    operandsR2W (modeAt (instrWord s) 2) (modeAt (instrWord s) 3) (modeAt (instrWord s) 4) s =
      raiseFirst (faultsR2W s) (.ok (opA s, opB s, wa s 3)) := by
  rw [operandsR2W_eq_modeCheck_bind, modeCheck_eq_raiseFirst, raiseFirst_ok_bind, ← raiseFirst_append]
  simp only [toDigit_modeAt h0, faultsR2W, hip, raiseFirst_false, opA, opB, List.cons_append, List.nil_append]

section Rule

variable {s : State} {op : Nat} {instr : Mode → Mode → Mode → Instr} {f : Word → Word → Cycle Word}
  {tests : List (Bool × FaultReason)} {v : Int}

/-- R82, R160: where the fetch is outside memory, the first condition of every rule holds. -/
theorem step_eq_settle_of_outside {t : State} (hr : s.engine = .running) (hip : outside s s.ip.toInt = true) :
    step s = settle s ((outside s s.ip.toInt, .outOfBounds) :: tests) t := by
  rw [fetchOutsideMemoryFaults s hr hip, settle_eq_endCycle, hip]
  rfl

/-- R100, R101, R130, R131: the whole cycle of a format `R2W` instruction, which the opcode `op` selects and whose result
is `v` behind the conditions `tests`. -/
theorem step_eq_settle_of_R2W (hr : s.engine = .running) (hfetch : fetches s op)
    (hselect : ∀ m1 m2 m3, Fields.toInstr ⟨op, m1, m2, m3⟩ = .ok (instr m1 m2 m3))
    (hexec : ∀ m1 m2 m3 s, exec (instr m1 m2 m3) s = execR2W f m1 m2 m3 s)
    (hresult : f (opA s) (opB s) = raiseFirst tests (.ok (Word.ofInt v))) :
    step s = settle s (faultsR2W s ++ tests) (afterWrite s v) := by
  cases hip : outside s s.ip.toInt with
  | true => exact step_eq_settle_of_outside hr hip
  | false =>
    obtain ⟨h0, hop⟩ := hfetch.resolve_left (by simp [hip])
    have hw : s.mem.word? s.ip.toInt = some (instrWord s) := word?_eq_cell hip
    have hdecode := (decode_eq_toInstr h0 hop).trans (hselect _ _ _)
    rw [step_eq_exec hr hw hdecode, hexec, execR2W, operandsR2W_eq_raiseFirst hip h0, raiseFirst_ok_bind,
      hresult, raiseFirst_ok_bind, ← raiseFirst_append, State.store_advance_eq, settle_eq_endCycle]
    rfl

end Rule

/-- Settles O34: the result of `add` is the exact sum behind the condition of `Overflow`. -/
theorem addFollowsItsRule : Obligations.AddFollowsItsRule := fun _ hr hfetch =>
  step_eq_settle_of_R2W (op := 1) hr hfetch (fun _ _ _ => rfl) exec_add (exactOrOverflow_eq_raiseFirst _)

/-- Settles O35: the result of `mul` is the exact product behind the condition of `Overflow`. -/
theorem mulFollowsItsRule : Obligations.MulFollowsItsRule := fun _ hr hfetch =>
  step_eq_settle_of_R2W (op := 2) hr hfetch (fun _ _ _ => rfl) exec_mul (exactOrOverflow_eq_raiseFirst _)

/-! ## The immediate twin -/

/-- R14: the raw parameter word, where there is one. -/
theorem raw_eq_of_word? {s : State} {i : Nat} {p : Word} (h : s.mem.word? (s.ip.toInt + i) = some p) : raw s i = p := by
  simp [raw, cell, h]

/-- R85: a read parameter has one value. -/
theorem readsAs_unique {s : State} {i : Nat} {m : Mode} {v v' : Word} (h : ReadsAs s i m v) (h' : ReadsAs s i m v') :
    v = v' := by
  rw [readsAs_iff_readParam] at h h'
  exact Except.ok.inj (h.symm.trans h')

/-- R86: a write parameter names one address. -/
theorem writesTo_unique {s : State} {i d d' : Nat} (h : WritesTo s i d) (h' : WritesTo s i d') : d = d' := by
  rw [writesTo_iff_writeAddr] at h h'
  exact Except.ok.inj (h.symm.trans h')

section Congr

variable {s s' : State} {i : Nat}

/-- R85: a read parameter has the same value in a state that has the same words at the addresses it touches. -/
theorem readsAs_congr {m : Mode} {v : Word} (hip : s'.ip = s.ip)
    (hraw : s'.mem.word? (s.ip.toInt + i) = s.mem.word? (s.ip.toInt + i))
    (hcell : m = .position → s'.mem.word? (raw s i).toInt = s.mem.word? (raw s i).toInt)
    (h : ReadsAs s i m v) : ReadsAs s' i m v := by
  obtain ⟨p, hp, hv⟩ := h
  refine ⟨p, by rw [hip, hraw, hp], hv.imp_right fun ⟨hm, hv⟩ => ⟨hm, ?_⟩⟩
  rw [← hv, ← raw_eq_of_word? hp, hcell hm]

/-- R86: a write parameter names the same address in a memory as long that has the same raw parameter word. -/
theorem writesTo_congr {d : Nat} (hip : s'.ip = s.ip) (hlen : s'.mem.len = s.mem.len)
    (hraw : s'.mem.word? (s.ip.toInt + i) = s.mem.word? (s.ip.toInt + i)) (h : WritesTo s i d) : WritesTo s' i d := by
  obtain ⟨hd, p, hp, hpd⟩ := h
  exact ⟨hlen ▸ hd, p, by rw [hip, hraw, hp], hpd⟩

end Congr

/-- R104: the state whose instruction at `n` has the word `w` increased by 100 and the raw parameter word `x`. -/
def immediateTwin (s : State) (n : Nat) (w x : Word) : State :=
  (s.store (n + 1) x).store n (Word.ofInt (w.toInt + 100))

/-- R104: in a word whose parameter 1 is in position mode, the increase by 100 does not overflow. -/
theorem toInt_add_hundred {w : Word} (hm : digitOf w 2 = 0) :
    (Word.ofInt (w.toInt + 100)).toInt = w.toInt + 100 := by
  refine toInt_ofInt_of_fits (fits_iff.mpr ?_)
  have hlo := BitVec.le_toInt w
  have hhi := BitVec.toInt_lt (x := w)
  simp only [digitOf, Config.wMin, Config.wMax] at *
  omega

/-- R61, R67: a word that decodes to an instruction of format `R2W`, digit by digit. -/
theorem decode_eq_ok_of_R2W {w : Word} {i : Instr} {m1 m2 m3 : Mode}
    (hparams : i.params = [(.read, m1), (.read, m2), (.write, m3)]) :
    decode w = .ok i ↔ 0 ≤ w.toInt ∧ w.toInt % 100 = i.opcode ∧
      m1.toDigit = digitOf w 2 ∧ m2.toDigit = digitOf w 3 ∧ m3.toDigit = digitOf w 4 := by
  rw [decodeReadsExactlyItsDigits w i, hparams]
  simp [List.range_succ]

/-- R61, R104: the increase by 100 turns the mode of parameter 1 from position to immediate, and nothing else. -/
theorem decode_add_hundred {w : Word} {i i' : Instr} {m2 m3 : Mode} (h : decode w = .ok i)
    (hparams : i.params = [(.read, .position), (.read, m2), (.write, m3)])
    (hparams' : i'.params = [(.read, .immediate), (.read, m2), (.write, m3)]) (hop : i'.opcode = i.opcode) :
    decode (Word.ofInt (w.toInt + 100)) = .ok i' := by
  obtain ⟨h0, hlow, h1, h2, h3⟩ := (decode_eq_ok_of_R2W hparams).mp h
  have hsum := toInt_add_hundred h1.symm
  rw [decode_eq_ok_of_R2W hparams', hop, hsum]
  simp only [digitOf, hsum, Mode.toDigit] at *
  omega

section Twin

variable {s : State} {n : Nat} {w x : Word}

@[simp] theorem immediateTwin_ip : (immediateTwin s n w x).ip = s.ip := rfl

@[simp] theorem immediateTwin_engine : (immediateTwin s n w x).engine = s.engine := rfl

@[simp] theorem immediateTwin_len : (immediateTwin s n w x).mem.len = s.mem.len := rfl

variable (hwf : s.mem.wf = true) (hn : n + 1 < s.mem.len.val)

include hwf hn

theorem immediateTwin_wf : (immediateTwin s n w x).mem.wf = true :=
  Memory.set_wf (Memory.set_wf hwf hn) (Nat.lt_of_succ_lt hn)

/-- R42: the twin has the two altered words, and the words of `s` elsewhere. -/
theorem immediateTwin_word? (a : Int) :
    (immediateTwin s n w x).mem.word? a =
      if a = n then some (Word.ofInt (w.toInt + 100)) else if a = n + 1 then some x else s.mem.word? a := by
  rw [immediateTwin, State.store_mem, State.store_mem, Memory.word?_set (Memory.set_wf hwf hn) (Nat.lt_of_succ_lt hn),
    Memory.word?_set hwf hn, Nat.cast_succ]

theorem immediateTwin_word?_of_ne {a : Int} (h : a ≠ n) (h' : a ≠ n + 1) :
    (immediateTwin s n w x).mem.word? a = s.mem.word? a := by
  rw [immediateTwin_word? hwf hn, if_neg h, if_neg h']

/-- R104: the twin reads `x` in parameter 1, what `s` reads in parameter 2 and writes where `s` writes. -/
theorem immediateTwin_operands {m2 : Mode} {b : Word} {d : Nat} (hip : s.ip.toInt = n)
    (hother : m2 = .position → (raw s 2).toInt ≠ n ∧ (raw s 2).toInt ≠ n + 1)
    (hb : ReadsAs s 2 m2 b) (hd : WritesTo s 3 d) :
    ReadsAs (immediateTwin s n w x) 1 .immediate x ∧ ReadsAs (immediateTwin s n w x) 2 m2 b ∧
      WritesTo (immediateTwin s n w x) 3 d := by
  have hraw (i : Nat) (hi : 2 ≤ i) :
      (immediateTwin s n w x).mem.word? (s.ip.toInt + i) = s.mem.word? (s.ip.toInt + i) :=
    immediateTwin_word?_of_ne hwf hn (by omega) (by omega)
  refine ⟨⟨x, ?_, .inl ⟨rfl, rfl⟩⟩, ?_, writesTo_congr immediateTwin_ip immediateTwin_len (hraw 3 (by decide)) hd⟩
  · rw [immediateTwin_word? hwf hn, immediateTwin_ip, hip, if_neg (by omega), if_pos (by omega)]
  · refine readsAs_congr immediateTwin_ip (hraw 2 le_rfl) (fun hm => ?_) hb
    obtain ⟨hne, hne'⟩ := hother hm
    exact immediateTwin_word?_of_ne hwf hn hne hne'

/-- R42, R104: after the same write, the twin differs from `s` in the two altered words at most, and agrees with it at the
address written. -/
theorem immediateTwin_set_word? {d : Nat} {v : Word} {a : Int} (hd : d < s.mem.len.val)
    (ha : a = d ∨ (a ≠ n ∧ a ≠ n + 1)) :
    ((immediateTwin s n w x).mem.set d v).word? a = (s.mem.set d v).word? a := by
  rw [Memory.word?_set (immediateTwin_wf hwf hn) hd, Memory.word?_set hwf hd]
  rcases ha with rfl | ⟨hne, hne'⟩
  · simp
  · rw [immediateTwin_word?_of_ne hwf hn hne hne']

end Twin

/-- R104, for every instruction of format `R2W`. -/
theorem immediateTwin_writes_the_same {s t : State} {n : Nat} {w x : Word} {instr : Mode → Mode → Mode → Instr}
    {f : Word → Word → Cycle Word} {m2 m3 : Mode}
    (hexec : ∀ m1 m2 m3 s, exec (instr m1 m2 m3) s = execR2W f m1 m2 m3 s)
    (hdecode : decode w = .ok (instr .position m2 m3))
    (hdecode' : decode (Word.ofInt (w.toInt + 100)) = .ok (instr .immediate m2 m3))
    (hwf : s.mem.wf = true) (hr : s.engine = .running) (hip : s.ip.toInt = n) (hw : s.mem.word? n = some w)
    (hx : ReadsAs s 1 .position x)
    (hother : m2 = .position → (raw s 2).toInt ≠ n ∧ (raw s 2).toInt ≠ n + 1)
    (hstep : step s = .next t) (ht : t.engine = .running) :
    ∃ t', step (immediateTwin s n w x) = .next t' ∧ t'.engine = .running ∧ t'.ip = t.ip ∧
      (∀ d, WritesTo s 3 d → t'.mem.word? d = t.mem.word? d) ∧
      ∀ a : Int, a ≠ n → a ≠ n + 1 → t'.mem.word? a = t.mem.word? a := by
  have hn : n + 1 < s.mem.len.val := by
    obtain ⟨p, hp, -⟩ := hx
    have := Memory.word?_some_valid hp
    omega
  rw [step_eq_exec hr (hip ▸ hw) hdecode, hexec] at hstep
  obtain ⟨rfl, a, b, d, v, ha, hb, hd, hv, rfl⟩ := execR2W_inversion hstep (by simp [ht])
  obtain rfl := readsAs_unique hx ha
  obtain ⟨ha', hb', hd'⟩ := immediateTwin_operands (w := w) (x := x) hwf hn hip hother hb hd
  have hw' : (immediateTwin s n w x).mem.word? (immediateTwin s n w x).ip.toInt =
      some (Word.ofInt (w.toInt + 100)) := by
    rw [immediateTwin_word? hwf hn, immediateTwin_ip, if_pos hip]
  refine ⟨((immediateTwin s n w x).store d v).advance 4, ?_, hr, rfl, fun d' hd'' => ?_, fun c hne hne' => ?_⟩
  · rw [step_eq_exec (immediateTwin_engine.trans hr) hw' hdecode', hexec, execR2W_completes ha' hb' hd' hv]
  · obtain rfl := writesTo_unique hd hd''
    exact immediateTwin_set_word? hwf hn hd.1 (.inl rfl)
  · exact immediateTwin_set_word? hwf hn hd.1 (.inr ⟨hne, hne'⟩)

/-- Settles O53: the twin decodes to the immediate form, resolves the same operands and makes the same write. -/
theorem immediateTwinWritesTheSame : Obligations.ImmediateTwinWritesTheSame := by
  intro s t w x m2 m3 n hwf hr hip hw hdecode hx hother hstep ht
  rcases hdecode with hadd | hmul
  · have hadd' := decode_add_hundred (i' := .add .immediate m2 m3) hadd rfl rfl rfl
    exact immediateTwin_writes_the_same exec_add hadd hadd' hwf hr hip hw hx hother hstep ht
  · have hmul' := decode_add_hundred (i' := .mul .immediate m2 m3) hmul rfl rfl rfl
    exact immediateTwin_writes_the_same exec_mul hmul hmul' hwf hr hip hw hx hother hstep ht

end Sys2Proof.Machine
end

section
/-!
PROOFS. Input and output: what `input` and `output` commit, and their faults in the order tested (`42_io.md`). MODECHECK and
OPERANDS of the formats `W1` and `R1` and `next_input()` become conditions and values, as those of the format `R2W` have.
-/

namespace Sys2Proof.Machine

open Sys2Proof.Rules

/-! ## The instructions as phases in sequence -/

theorem exec_input (m1 : Mode) (s : State) : exec (.input m1) s =
    endCycle s (operandsW1 m1 s >>= fun d => nextInput s >>= fun p => pure ((p.2.store d p.1).advance 2)) := rfl

theorem exec_output (m1 : Mode) (s : State) : exec (.output m1) s =
    endCycle s (operandsR1 m1 s >>= fun a => pure ((s.emit a).advance 2)) := rfl

/-- R110: what `input` commits, as the rule writes it. -/
theorem State.pop_store_advance_eq (s : State) (rest : List Word) (d : Nat) (x : Word) :
    (State.store { s with inQ := rest } d x).advance 2 =
      { s with mem := s.mem.set d x, inQ := rest, ip := Word.ofInt (s.ip.toInt + 2) } := State.advance_eq _ 2

/-- R111: what `output` commits, as the rule writes it. -/
theorem State.emit_advance_eq (s : State) (a : Word) :
    (s.emit a).advance 2 = { s with outQ := s.outQ ++ [a], ip := Word.ofInt (s.ip.toInt + 2) } := State.advance_eq _ 2

/-- Settles O27: the destination resolves, and the queue has a head. -/
theorem inputCompletes : Obligations.InputCompletes := by
  intro s x rest d hd hq
  have ho : operandsW1 .position s = .ok d := operandsW1_eq_ok.mpr ⟨rfl, writesTo_iff_writeAddr.mp hd⟩
  have hnext : nextInput s = .ok (x, { s with inQ := rest }) := nextInput_eq_ok.mpr ⟨hq, rfl⟩
  rw [exec_input, ho, Cycle.ok_bind, hnext, Cycle.ok_bind, Cycle.pure_eq, endCycle_ok, State.pop_store_advance_eq]

/-- Settles O28: the operand resolves, and the append never fails. -/
theorem outputCompletes : Obligations.OutputCompletes := by
  intro s m1 a ha
  have ho : operandsR1 m1 s = .ok a := operandsR1_eq_ok.mpr (readsAs_iff_readParam.mp ha)
  rw [exec_output, ho, Cycle.ok_bind, Cycle.pure_eq, endCycle_ok, State.emit_advance_eq]

/-! ## The phases as conditions and values -/

/-- R71: MODECHECK of a single demanded parameter. -/
theorem modeCheck_singleton (k : ParamKind) (m : Mode) : modeCheck [(k, m)] = checkMode k m := by
  rw [modeCheck_cons]
  cases checkMode k m <;> rfl

/-- R71, R86: MODECHECK and OPERANDS of the format `W1`. -/
theorem operandsW1_eq_raiseFirst (m1 : Mode) (s : State) :
    operandsW1 m1 s = raiseFirst [(reservedDigit m1.toDigit, .unsupportedMode),
      (decide ((m1.toDigit : Int) = 1), .invalidWriteMode), (writeOutside s 1, .outOfBounds)] (.ok (wa s 1)) := by
  unfold operandsW1
  rw [modeCheck_singleton, checkMode_write_eq_raiseFirst, raiseFirst_ok_bind, writeAddr_eq_raiseFirst,
    ← raiseFirst_append]
  rfl

/-- R71, R85: MODECHECK and OPERANDS of the format `R1`; the operand is resolved in a legal mode. -/
theorem operandsR1_eq_raiseFirst (m1 : Mode) (s : State) :
    operandsR1 m1 s = raiseFirst [(reservedDigit m1.toDigit, .unsupportedMode),
      (readOutside s 1 m1.toDigit, .outOfBounds)] (.ok (rd s 1 m1.toDigit)) := by
  unfold operandsR1
  rw [modeCheck_singleton, Cycle.bind_congr_of_ok fun _ hm => readParam_eq_raiseFirst hm,
    checkMode_read_eq_raiseFirst, raiseFirst_ok_bind, ← raiseFirst_append]
  rfl

/-- R112, R155: `next_input()`. -/
theorem nextInput_eq_raiseFirst (s : State) :
    nextInput s = raiseFirst [(s.inQ.isEmpty, .inputExhausted)] (.ok (s.inQ.headD 0, { s with inQ := s.inQ.tail })) := by
  cases hq : s.inQ with
  | nil => exact nextInput_eq_error.mpr ⟨hq, rfl⟩
  | cons x rest => exact nextInput_eq_ok.mpr ⟨hq, rfl⟩

/-! ## The whole rule of an instruction -/

/-- R82, R159: the whole cycle of the instruction `i`, which the opcode `op` selects: the fetch's condition comes before
the conditions `tests` of `i`'s later phases. -/
theorem step_eq_settle_of_exec {s t : State} {op : Nat} {i : Instr} {tests : List (Bool × FaultReason)}
    (hr : s.engine = .running) (hfetch : fetches s op)
    (hselect : Fields.toInstr ⟨op, modeAt (instrWord s) 2, modeAt (instrWord s) 3, modeAt (instrWord s) 4⟩ = .ok i)
    (hexec : 0 ≤ (instrWord s).toInt → exec i s = endCycle s (raiseFirst tests (.ok t))) :
    step s = settle s ((outside s s.ip.toInt, .outOfBounds) :: tests) t := by
  cases hip : outside s s.ip.toInt with
  | true => simpa only [hip] using step_eq_settle_of_outside (tests := tests) (t := t) hr hip
  | false =>
    obtain ⟨h0, hop⟩ := hfetch.resolve_left (by simp [hip])
    have hdecode : decode (instrWord s) = .ok i := (decode_eq_toInstr h0 hop).trans hselect
    rw [step_eq_exec hr (word?_eq_cell hip) hdecode, hexec h0, settle_eq_endCycle, raiseFirst_false]

/-- Settles O36: the destination's conditions come before the look at the queue, so a fault consumes no input. -/
theorem inputFollowsItsRule : Obligations.InputFollowsItsRule := by
  intro s hr hfetch
  refine step_eq_settle_of_exec (op := 3) hr hfetch rfl fun h0 => ?_
  rw [exec_input, operandsW1_eq_raiseFirst, raiseFirst_ok_bind, nextInput_eq_raiseFirst, raiseFirst_ok_bind,
    ← raiseFirst_append, Cycle.pure_eq, State.pop_store_advance_eq, toDigit_modeAt h0]
  rfl

/-- Settles O37: behind the operand's conditions the append never fails. -/
theorem outputFollowsItsRule : Obligations.OutputFollowsItsRule := by
  intro s hr hfetch
  refine step_eq_settle_of_exec (op := 4) hr hfetch rfl fun h0 => ?_
  rw [exec_output, operandsR1_eq_raiseFirst, raiseFirst_ok_bind, Cycle.pure_eq, State.emit_advance_eq, toDigit_modeAt h0]
  rfl

end Sys2Proof.Machine
end

section
/-!
PROOFS. The conditional jumps: what `jnz` and `jz` commit, their faults in the order tested, and that exactly one of them
is taken (`43_jumps.md`). What both need of the format `R2` is proved once.
-/

namespace Sys2Proof.Machine

open Sys2Proof.Rules

/-! ## The instructions as phases in sequence -/

/-- R120: `jnz`, its commit written as the rule writes it. -/
theorem exec_jnz (m1 m2 : Mode) (s : State) : exec (.jnz m1 m2) s = endCycle s (operandsR2 m1 m2 s >>= fun o =>
    .ok { s with ip := if o.1.toInt ≠ 0 then o.2 else Word.ofInt (s.ip.toInt + 3) }) :=
  congrArg (endCycle s) (bind_congr fun o => congrArg Except.ok (jnz_eq s o.1 o.2))

/-- R121: `jz`, its commit written as the rule writes it. -/
theorem exec_jz (m1 m2 : Mode) (s : State) : exec (.jz m1 m2) s = endCycle s (operandsR2 m1 m2 s >>= fun o =>
    .ok { s with ip := if o.1.toInt = 0 then o.2 else Word.ofInt (s.ip.toInt + 3) }) :=
  congrArg (endCycle s) (bind_congr fun o => congrArg Except.ok (jz_eq s o.1 o.2))

/-! ## Completion -/

/-- R85, R87: the operands of the format `R2`, in the rules' own terms. -/
theorem operandsR2_of_readsAs {s : State} {m1 m2 : Mode} {a target : Word} (ha : ReadsAs s 1 m1 a)
    (htarget : ReadsAs s 2 m2 target) : operandsR2 m1 m2 s = .ok (a, target) :=
  operandsR2_eq_ok.mpr ⟨readsAs_iff_readParam.mp ha, readsAs_iff_readParam.mp htarget⟩

/-- Settles O29: the operands resolve, and a jump raises no fault of its own. -/
theorem jnzCompletes : Obligations.JnzCompletes := by
  intro s m1 m2 a target ha htarget
  rw [exec_jnz, operandsR2_of_readsAs ha htarget, Cycle.ok_bind, endCycle_ok]

/-- Settles O30: the operands resolve, and a jump raises no fault of its own. -/
theorem jzCompletes : Obligations.JzCompletes := by
  intro s m1 m2 a target ha htarget
  rw [exec_jz, operandsR2_of_readsAs ha htarget, Cycle.ok_bind, endCycle_ok]

/-! ## The whole rule -/

/-- R71: MODECHECK of the format `R2` tests its conditions in the order of the parameters. -/
theorem modeCheck_R2_eq_raiseFirst (m1 m2 : Mode) :
    modeCheck [(.read, m1), (.read, m2)] =
      raiseFirst [(reservedDigit m1.toDigit, .unsupportedMode), (reservedDigit m2.toDigit, .unsupportedMode)]
        (.ok ()) := by
  rw [modeCheck_cons, modeCheck_singleton, checkMode_read_eq_raiseFirst, checkMode_read_eq_raiseFirst,
    raiseFirst_ok_bind, ← raiseFirst_append]
  rfl

/-- R87, R124: OPERANDS of the format `R2`, in legal modes, resolves both parameters before anything else is done. -/
theorem operandsR2_eq_modeCheck_bind (m1 m2 : Mode) (s : State) :
    operandsR2 m1 m2 s = modeCheck [(.read, m1), (.read, m2)] >>= fun _ =>
      raiseFirst [(readOutside s 1 m1.toDigit, .outOfBounds), (readOutside s 2 m2.toDigit, .outOfBounds)]
        (.ok (rd s 1 m1.toDigit, rd s 2 m2.toDigit)) := by
  refine Cycle.bind_congr_of_ok fun _ hok => ?_
  have hlegal := modeCheck_eq_ok.mp hok
  rw [readParam_eq_raiseFirst (hlegal (.read, m1) (by simp)), raiseFirst_ok_bind,
    readParam_eq_raiseFirst (hlegal (.read, m2) (by simp)), raiseFirst_ok_bind, ← raiseFirst_append]
  rfl

/-- R71, R87: MODECHECK and OPERANDS of the jump at IP test the conditions of the rule after the fetch, in its order. -/
theorem operandsR2_eq_raiseFirst {s : State} (h0 : 0 ≤ (instrWord s).toInt) :
    operandsR2 (modeAt (instrWord s) 2) (modeAt (instrWord s) 3) s =
      raiseFirst (faultsR2 s).tail (.ok (opA s, opB s)) := by
  rw [operandsR2_eq_modeCheck_bind, modeCheck_R2_eq_raiseFirst, raiseFirst_ok_bind, ← raiseFirst_append,
    toDigit_modeAt h0, toDigit_modeAt h0]
  rfl

/-- Settles O38: both operands' conditions come before the test of `a`, and the jump itself has none. -/
theorem jnzFollowsItsRule : Obligations.JnzFollowsItsRule := by
  intro s hr hfetch
  refine step_eq_settle_of_exec (op := 5) hr hfetch rfl fun h0 => ?_
  rw [exec_jnz, operandsR2_eq_raiseFirst h0, raiseFirst_ok_bind]
  rfl

/-- Settles O39: both operands' conditions come before the test of `a`, and the jump itself has none. -/
theorem jzFollowsItsRule : Obligations.JzFollowsItsRule := by
  intro s hr hfetch
  refine step_eq_settle_of_exec (op := 6) hr hfetch rfl fun h0 => ?_
  rw [exec_jz, operandsR2_eq_raiseFirst h0, raiseFirst_ok_bind]
  rfl

/-! ## Exactly one of them is taken -/

/-- R90: past a parameter 2 that resolves, the fall-through of a jump does not wrap. -/
theorem fallThrough_toInt {s : State} {m2 : Mode} {target : Word} (htarget : ReadsAs s 2 m2 target) :
    (Word.ofInt (s.ip.toInt + 3)).toInt = s.ip.toInt + 3 := by
  have hexact := advance_toInt_of_readParam (readsAs_iff_readParam.mp htarget) (by decide)
  rwa [advance_eq_ofInt] at hexact

/-- Settles O52: both complete, and the tests of `a` exclude each other. -/
theorem exactlyOneOfJnzAndJzIsTaken : Obligations.ExactlyOneOfJnzAndJzIsTaken := by
  intro s m1 m2 a target ha htarget
  refine ⟨_, _, jnzCompletes s m1 m2 a target ha htarget, jzCompletes s m1 m2 a target ha htarget, ?_⟩
  have hfall := fallThrough_toInt htarget
  by_cases hzero : a.toInt = 0
  · exact .inr ⟨if_pos hzero, by simpa [hzero] using hfall⟩
  · exact .inl ⟨if_pos hzero, by simpa [hzero] using hfall⟩

end Sys2Proof.Machine
end

section
/-!
PROOFS. Comparison: what `lt` and `eq` commit, and their faults in the order tested (`44_compare.md`). Both are of the
format `R2W`, with a result that raises no fault.
-/

namespace Sys2Proof.Machine

open Sys2Proof.Rules

/-! ## The instructions in their format -/

theorem exec_lt (m1 m2 m3 : Mode) (s : State) :
    exec (.lt m1 m2 m3) s = execR2W (fun a b => .ok (aluLt a b)) m1 m2 m3 s := rfl

theorem exec_eq (m1 m2 m3 : Mode) (s : State) :
    exec (.eq m1 m2 m3) s = execR2W (fun a b => .ok (aluEq a b)) m1 m2 m3 s := rfl

/-! ## Completion -/

/-- R132: the word that a comparison writes, for a relation that can be decided. -/
theorem truthWord_decide (p : Prop) [Decidable p] : truthWord (decide p) = if p then 1 else 0 := by
  by_cases hp : p <;> simp [truthWord, hp]

/-- Settles O31: the operands resolve, and the order of the integers always has a truth value. -/
theorem ltCompletes : Obligations.LtCompletes := by
  intro s m1 m2 a b d ha hb hd
  rw [exec_lt, execR2W_completes ha hb hd rfl, State.store_advance_eq, aluLt, truthWord_decide]

/-- Settles O32: the operands resolve, and equality of the integers always has a truth value. -/
theorem eqCompletes : Obligations.EqCompletes := by
  intro s m1 m2 a b d ha hb hd
  rw [exec_eq, execR2W_completes ha hb hd rfl, State.store_advance_eq, aluEq, truthWord_decide]

/-! ## The whole rule -/

/-- R130, R131: the whole cycle of a format `R2W` instruction whose result `v` raises no fault: its conditions are those
of the format. -/
theorem step_eq_settle_of_total_R2W {s : State} {op : Nat} {instr : Mode → Mode → Mode → Instr}
    {g : Word → Word → Word} {v : Int} (hr : s.engine = .running) (hfetch : fetches s op)
    (hselect : ∀ m1 m2 m3, Fields.toInstr ⟨op, m1, m2, m3⟩ = .ok (instr m1 m2 m3))
    (hexec : ∀ m1 m2 m3 s, exec (instr m1 m2 m3) s = execR2W (fun a b => .ok (g a b)) m1 m2 m3 s)
    (hresult : g (opA s) (opB s) = Word.ofInt v) : step s = settle s (faultsR2W s) (afterWrite s v) := by
  have hrule := step_eq_settle_of_R2W (tests := []) hr hfetch hselect hexec (congrArg Except.ok hresult)
  rwa [List.append_nil] at hrule

/-- Settles O40: the order of the integers raises no fault of its own. -/
theorem ltFollowsItsRule : Obligations.LtFollowsItsRule := fun _ hr hfetch =>
  step_eq_settle_of_total_R2W (op := 7) hr hfetch (fun _ _ _ => rfl) exec_lt (aluLt_eq_ofInt _ _)

/-- Settles O41: equality of the integers raises no fault of its own. -/
theorem eqFollowsItsRule : Obligations.EqFollowsItsRule := fun _ hr hfetch =>
  step_eq_settle_of_total_R2W (op := 8) hr hfetch (fun _ _ _ => rfl) exec_eq (aluEq_eq_ofInt _ _)

end Sys2Proof.Machine
end

section
/-!
PROOFS. `halt` and the words that are no instruction (`45_halt_and_illegal.md`): what the decoder answers for either, and
what the cycle that fetches one does.
-/

namespace Sys2Proof.Machine

open Sys2Proof.Rules

/-! ## The decoder -/

/-- R67: the opcodes of the nine instructions. -/
theorem opcode_range (i : Instr) : 1 ≤ i.opcode ∧ i.opcode ≤ 8 ∨ i.opcode = 99 := by
  cases i <;> simp [Instr.opcode]

/-- R67, R140: a word is a `halt` word by its two low digits alone, since `halt` demands no mode. -/
theorem decode_eq_halt {w : Word} : decode w = .ok .halt ↔ 0 ≤ w.toInt ∧ w.toInt % 100 = 99 := by
  simpa [Instr.opcode, Instr.params] using decodeReadsExactlyItsDigits w .halt

/-- R141: the decoder rejects the words that the rule lists, since no instruction has their opcode. -/
theorem decode_eq_error_of_not_instruction {w : Word}
    (h : w.toInt < 0 ∨ w.toInt % 100 = 0 ∨ (9 ≤ w.toInt % 100 ∧ w.toInt % 100 ≤ 98)) :
    ∃ e, decode w = .error e := by
  cases hdecode : decode w with
  | error e => exact ⟨e, rfl⟩
  | ok i =>
    obtain ⟨h0, hop, -⟩ := (decodeReadsExactlyItsDigits w i).mp hdecode
    have hrange := opcode_range i
    omega

/-! ## The end of a cycle -/

/-- R142: from a `Running` state, the rest of a cycle ends `Halted` exactly for `halt`. -/
theorem exec_engine_eq_halted {i : Instr} {s t : State} (hr : s.engine = .running) (h : exec i s = .next t) :
    t.engine = .halted ↔ i = .halt := by
  constructor
  · intro ht
    rcases exec_cases h with ⟨r, rfl⟩ | ⟨-, -, -, ⟨hengine, -⟩ | ⟨hi, -⟩⟩
    · exact absurd ht nofun
    · exact absurd (hr.symm.trans (hengine.symm.trans ht)) nofun
    · exact hi
  · rintro rfl
    obtain rfl := Host.Outcome.next.inj h
    rfl

/-- R142: a cycle ends `Halted` exactly where FETCH and DECODE answer `halt`. -/
theorem step_engine_eq_halted {s t : State} (hr : s.engine = .running) (h : step s = .next t) :
    t.engine = .halted ↔ fetchInstr s = .ok .halt := by
  rcases step_cases hr h with ⟨i, hf, hexec⟩ | ⟨r, rfl, hf⟩
  · rw [exec_engine_eq_halted hr hexec, hf, Except.ok.injEq]
  · simp [hf]

/-! ## The statements -/

/-- Settles O33: `halt` demands no operand, so nothing comes before its commit. -/
theorem haltCompletes : Obligations.HaltCompletes := fun _ => rfl

/-- Settles O14: the decoder rejects the word, and every rejection gives the same reason. -/
theorem wordsThatSelectNoInstructionFault : Obligations.WordsThatSelectNoInstructionFault := by
  intro s w hr hw hnot
  have hf : fetchInstr s = .error .unsupportedOpcode :=
    fetchInstr_eq_error.mpr (.inr ⟨w, hw, decode_eq_error_of_not_instruction hnot, rfl⟩)
  rw [step_running hr, hf]

/-- Settles O42: behind the fetch's condition `halt` has none of its own. -/
theorem haltFollowsItsRule : Obligations.HaltFollowsItsRule := fun s hr hfetch =>
  step_eq_settle_of_exec (op := 99) (tests := []) hr hfetch rfl fun _ => haltCompletes s

/-- Settles O47: a step halts where it fetches a word that decodes to `halt`. -/
theorem onlyHaltHalts : Obligations.OnlyHaltHalts := by
  intro s t hr h
  rw [step_engine_eq_halted hr h, fetchInstr_eq_ok]
  exact exists_congr fun w => and_congr_right fun _ => decode_eq_halt

end Sys2Proof.Machine
end

section
/-!
PROOFS. The faults (`60_exceptions.md`): the reasons that each instruction can raise.
-/

namespace Sys2Proof.Machine

/-! ## The mode faults -/

/-- R72: the legal modes are those that MODECHECK lets pass. -/
theorem wf_iff_modeCheck {i : Instr} : i.wf = true ↔ modeCheck i.params = .ok () := by
  rw [modeCheck_eq_ok]
  cases i <;>
    simp [Instr.wf, Instr.params, checkMode_read_eq_ok, checkMode_write_eq_ok, Mode.legalWrite_iff, and_assoc]

/-- R65: the opcodes of the formats that write. -/
theorem opcode_of_write_mem {i : Instr} {m : Mode} (h : (.write, m) ∈ i.params) :
    i.opcode = 1 ∨ i.opcode = 2 ∨ i.opcode = 3 ∨ i.opcode = 7 ∨ i.opcode = 8 := by
  cases i <;> simp_all [Instr.params, Instr.opcode]

/-- R71, R154: `InvalidWriteMode` is the fault of a write parameter. -/
theorem write_mem_of_invalidWriteMode {ps : List (ParamKind × Mode)} (h : modeCheck ps = .error .invalidWriteMode) :
    ∃ m, (.write, m) ∈ ps := by
  obtain ⟨before, k, m, after, rfl, -, hm⟩ := modeCheck_eq_error.mp h
  rcases checkMode_eq_error.mp hm with ⟨_, _, hr⟩ | ⟨-, rfl, -⟩
  · exact absurd hr nofun
  · exact ⟨m, by simp⟩

/-! ## The reasons by instruction -/

/-- R151: the faults that phases 3 to 6 of a cycle raise for `i`: those of MODECHECK and OPERANDS for an instruction with
parameters, `InputExhausted` for `input`, `Overflow` for `add` and `mul`. -/
def InstrFault (i : Instr) (r : FaultReason) : Prop :=
  i ≠ .halt ∧ (OperandFault i.params r ∨ r = .inputExhausted ∧ i.opcode = 3 ∨
    r = .overflow ∧ (i.opcode = 1 ∨ i.opcode = 2))

/-- R151: from a `Running` state, the rest of a cycle does not end in `Faulted`, or it raises one of the instruction's
faults. -/
theorem exec_fault_cases {i : Instr} {s t : State} (hr : s.engine = .running) (h : exec i s = .next t) :
    t.engine ≠ .faulted ∨ ∃ r, InstrFault i r ∧ t = s.takeFault r := by
  cases i with
  | add m1 m2 m3 =>
    rcases execAdd_cases h with ⟨a, b, d, -, -, rfl⟩ | ⟨r, hf | hf, ht⟩
    · exact .inl (by simp [hr])
    · exact .inr ⟨r, ⟨nofun, .inl hf⟩, ht⟩
    · exact .inr ⟨r, ⟨nofun, .inr (.inr ⟨hf, .inl rfl⟩)⟩, ht⟩
  | mul m1 m2 m3 =>
    rcases execMul_cases h with ⟨a, b, d, -, -, rfl⟩ | ⟨r, hf | hf, ht⟩
    · exact .inl (by simp [hr])
    · exact .inr ⟨r, ⟨nofun, .inl hf⟩, ht⟩
    · exact .inr ⟨r, ⟨nofun, .inr (.inr ⟨hf, .inr rfl⟩)⟩, ht⟩
  | input m1 =>
    rcases execInput_cases h with ⟨d, x, rest, -, -, rfl⟩ | ⟨r, hf | hf, ht⟩
    · exact .inl (by simp [hr])
    · exact .inr ⟨r, ⟨nofun, .inl hf⟩, ht⟩
    · exact .inr ⟨r, ⟨nofun, .inr (.inl ⟨hf, rfl⟩)⟩, ht⟩
  | output m1 =>
    rcases execOutput_cases h with ⟨a, -, rfl⟩ | ⟨r, hf, ht⟩
    · exact .inl (by simp [hr])
    · exact .inr ⟨r, ⟨nofun, .inl hf⟩, ht⟩
  | jnz m1 m2 =>
    rcases execJnz_cases h with ⟨a, target, -, rfl⟩ | ⟨r, hf, ht⟩
    · exact .inl (by simp [jnz_eq, hr])
    · exact .inr ⟨r, ⟨nofun, .inl hf⟩, ht⟩
  | jz m1 m2 =>
    rcases execJz_cases h with ⟨a, target, -, rfl⟩ | ⟨r, hf, ht⟩
    · exact .inl (by simp [jz_eq, hr])
    · exact .inr ⟨r, ⟨nofun, .inl hf⟩, ht⟩
  | lt m1 m2 m3 =>
    rcases execLt_cases h with ⟨a, b, d, -, rfl⟩ | ⟨r, hf, ht⟩
    · exact .inl (by simp [hr])
    · exact .inr ⟨r, ⟨nofun, .inl hf⟩, ht⟩
  | eq m1 m2 m3 =>
    rcases execEq_cases h with ⟨a, b, d, -, rfl⟩ | ⟨r, hf, ht⟩
    · exact .inl (by simp [hr])
    · exact .inr ⟨r, ⟨nofun, .inl hf⟩, ht⟩
  | halt =>
    obtain rfl := Host.Outcome.next.inj h
    exact .inl nofun

/-- Settles O48, by the five reasons that an instruction can raise, each with what it says of the instruction. -/
theorem faultReasonsByInstruction : Obligations.FaultReasonsByInstruction := by
  intro s t i hr h ht
  rcases exec_fault_cases hr h with hne | ⟨r, ⟨hhalt, hf⟩, rfl⟩
  · exact absurd ht hne
  simp only [State.takeFault_faultReg]
  rcases hf with (hmode | rfl) | ⟨rfl, hop⟩ | ⟨rfl, hop⟩
  · have hillegal : ¬ i.wf = true := by simp [wf_iff_modeCheck, hmode]
    rcases modeCheck_reason hmode with rfl | rfl
    · exact ⟨nofun, nofun, nofun, nofun, fun _ => hhalt, nofun, fun hwf => absurd hwf hillegal⟩
    · obtain ⟨m, hm⟩ := write_mem_of_invalidWriteMode hmode
      exact ⟨nofun, nofun, fun _ => opcode_of_write_mem hm, nofun, nofun, nofun, fun hwf => absurd hwf hillegal⟩
  · exact ⟨fun _ => hhalt, nofun, nofun, nofun, nofun, nofun, fun _ => ⟨nofun, nofun⟩⟩
  · exact ⟨nofun, nofun, nofun, fun _ => hop, nofun, nofun, fun _ => ⟨nofun, nofun⟩⟩
  · exact ⟨nofun, nofun, nofun, nofun, nofun, fun _ => hop, fun _ => ⟨nofun, nofun⟩⟩

end Sys2Proof.Machine
end

section
/-!
PROOFS. The host's side of the machine (`70_reset_and_hazards.md`): when a launch is described, how a run ends, and the
result that the host then gets.
-/

namespace Sys2Proof.Machine

/-! ## The preconditions of a launch -/

/-- R6: an image makes a memory exactly when it is no longer than the type of `MEM_LEN` allows. -/
theorem Memory.exists_ofImage {image : List Word} :
    (∃ m, Memory.ofImage image = some m) ↔ image.length ≤ Config.maxMemLen := by
  constructor
  · rintro ⟨m, hm⟩
    exact (Memory.ofImage_eq_some.mp hm).1 ▸ Nat.le_of_lt_succ m.len.isLt
  · intro h
    exact ⟨⟨⟨image.length, Nat.lt_succ_of_le h⟩, imageCells 0 image⟩, Memory.ofImage_eq_some.mpr ⟨rfl, rfl⟩⟩

/-- R181: a launch answers exactly when the start address is not negative and the image makes a memory. -/
theorem exists_launch {image : List Word} {startIp : Word} {inputs : List Word} :
    (∃ s, launch image startIp inputs = some s) ↔ 0 ≤ startIp.toInt ∧ ∃ m, Memory.ofImage image = some m := by
  constructor
  · rintro ⟨s, h⟩
    obtain ⟨hip, m, hm, -⟩ := launch_eq_some.mp h
    exact ⟨hip, m, hm⟩
  · rintro ⟨hip, m, hm⟩
    exact ⟨_, launch_eq_some.mpr ⟨hip, m, hm, rfl⟩⟩

/-- Settles O4: the bound in the type of `MEM_LEN` is R181's `WMAX - 3`. -/
theorem launchIsDescribedUnderItsPreconditions : Obligations.LaunchIsDescribedUnderItsPreconditions := by
  intro image startIp inputs
  have hbound : (Config.maxMemLen : Int) = Config.wMax - 3 := rfl
  rw [exists_launch, Memory.exists_ofImage]
  omega

/-! ## The end of a run -/

theorem core_run_one_eq {s t : State} : core.run 1 s = .next t ↔ step s = .next t := by
  obtain ⟨u, hu⟩ := step_next s
  rw [core_run_succ hu, hu]
  exact Iff.rfl

/-- R32: the run from a terminal state has ended there. -/
theorem EndsIn.eq_of_terminal {s t : State} (h : EndsIn s t) (hs : s.engine ≠ .running) : s = t := by
  obtain ⟨-, k, hk, -⟩ := h
  rw [terminalStatesAreAbsorbing s k hs] at hk
  exact Host.Outcome.next.inj hk

/-- A step on the way does not change where a run ends. -/
theorem EndsIn.of_step {s u t : State} (h : EndsIn s t) (hstep : step s = .next u) : EndsIn u t := by
  by_cases hs : s.engine = .running
  · obtain ⟨ht, k, hk, hbefore⟩ := h
    cases k with
    | zero => exact absurd (core_run_zero_eq.mp hk ▸ hs) ht
    | succ k =>
      rw [core_run_succ hstep] at hk
      exact ⟨ht, k, hk, fun j hj v hv => hbefore (j + 1) (by omega) v ((core_run_succ hstep j).trans hv)⟩
  · exact eq_of_step_terminal hs hstep ▸ h

/-- Wherever a run has led, it ends in the same state from there. -/
theorem EndsIn.of_reaches {s u t : State} (h : EndsIn s t) (hu : Reaches s u) : EndsIn u t :=
  Reaches.head_induction (R := fun s u => EndsIn s t → EndsIn u t) (fun _ => id)
    (fun hstep hrest hs => hrest (hs.of_step hstep)) hu h

/-- A run that ends elsewhere than it starts has a last cycle, which a `Running` state begins. -/
theorem EndsIn.exists_last_cycle {s t : State} (hs : s.engine = .running) (h : EndsIn s t) :
    ∃ u, Reaches s u ∧ u.engine = .running ∧ step u = .next t := by
  obtain ⟨ht, k, hk, hbefore⟩ := h
  cases k with
  | zero => exact absurd (core_run_zero_eq.mp hk ▸ hs) ht
  | succ k =>
    obtain ⟨u, hu⟩ := core_run_next k s
    rw [core_run_add k 1 hu, core_run_one_eq] at hk
    exact ⟨u, ⟨k, hu⟩, hbefore k (Nat.lt_succ_self k) u hu, hk⟩

/-- R92, R140, R160: a cycle leaves `Running` only by `halt`, or by the fault entry. -/
theorem step_cases_of_ends {s t : State} (hr : s.engine = .running) (h : step s = .next t) (ht : t.engine ≠ .running) :
    (t = s.stopHalted ∧ fetchInstr s = .ok .halt) ∨ ∃ r, t = s.takeFault r := by
  rcases step_cases hr h with ⟨i, hf, hexec⟩ | ⟨r, hfault, -⟩
  · rcases exec_cases hexec with hfault | ⟨-, -, -, ⟨hengine, -⟩ | ⟨rfl, hhalt⟩⟩
    · exact .inr hfault
    · exact absurd (hengine.trans hr) ht
    · exact .inl ⟨hhalt, hf⟩
  · exact .inr ⟨r, hfault⟩

/-- Settles O9: every state on the way has the same end, and the last cycle is one that leaves `Running`. -/
theorem endOfARunIsUnique : Obligations.EndOfARunIsUnique := by
  intro s t hs h
  refine ⟨fun u hu hne => (h.of_reaches hu).eq_of_terminal hne, fun u hu _ => h.of_reaches hu, ?_⟩
  obtain ⟨u, hu, hr, hstep⟩ := h.exists_last_cycle hs
  refine ⟨u, hu, hr, hstep, ?_⟩
  rcases step_cases_of_ends hr hstep h.1 with ⟨hhalt, hf⟩ | hfault
  · obtain ⟨w, hw, hdecode⟩ := fetchInstr_eq_ok.mp hf
    exact .inl ⟨hhalt, w, hw, decode_eq_halt.mp hdecode⟩
  · exact .inr hfault

/-! ## The result of a run -/

@[simp] theorem Memory.length_words (m : Memory) : m.words.length = m.len.val := by simp [Memory.words]

/-- R184: the final memory has `MEM[a]` at its place `a`, and nothing where there is no cell. -/
theorem Memory.getElem?_words (m : Memory) (a : Nat) : m.words[a]? = m.word? a := by
  by_cases ha : a < m.len.val
  · simp [Memory.word?_of_valid (m := m) (a := a) (by omega), Memory.words, ha]
  · rw [Memory.word?_eq_none.mpr (by omega), List.getElem?_eq_none (by simpa using ha)]

/-- R183: there is no terminal state, and so no result, before the run has ended. -/
theorem result_of_running {s : State} (hs : s.engine = .running) : result s = none := by
  simp [result, terminalState, hs]

/-- R184: with a terminal state there is a result, of these three parts. -/
theorem result_of_terminalState {s : State} {q : TerminalState} (h : terminalState s = some q) :
    result s = some { finalMemory := s.mem.words, outputs := s.outQ, terminal := q } := by
  simp [result, h]

theorem terminalState_of_halted {s : State} (h : s.engine = .halted) : terminalState s = some .halted := by
  simp [terminalState, h]

theorem terminalState_of_faulted {s : State} {r : FaultReason} (h : s.engine = .faulted) (hr : s.faultReg = some r) :
    terminalState s = some (.faulted r) := by
  simp [terminalState, h, hr]

/-- R20, R170: `STATE` and `FAULT` agree, so an ended run has the terminal state that they name. -/
theorem State.Inv.exists_terminalState {s : State} (hi : s.Inv) (hs : s.engine ≠ .running) :
    ∃ q, terminalState s = some q ∧ (s.engine = .halted → q = .halted) ∧
      ∀ r, s.faultReg = some r → q = .faulted r := by
  cases he : s.engine with
  | running => exact absurd he hs
  | halted =>
    have hnone : s.faultReg = none := by simpa [he] using hi.faultAgrees
    exact ⟨.halted, terminalState_of_halted he, fun _ => rfl, by simp [hnone]⟩
  | faulted =>
    obtain ⟨r, hr⟩ := Option.ne_none_iff_exists'.mp (hi.faultAgrees.mpr he)
    exact ⟨.faulted r, terminalState_of_faulted he hr, nofun, by simp [hr]⟩

/-- Settles O11: the result lists the memory's words and names the terminal state, which the invariant gives. -/
theorem resultIsTheFinalState : Obligations.ResultIsTheFinalState := by
  refine fun s hi => ⟨result_of_running, fun hs => ?_⟩
  obtain ⟨q, hq, hhalted, hfaulted⟩ := hi.exists_terminalState hs
  exact ⟨_, result_of_terminalState hq, s.mem.length_words, s.mem.getElem?_words, rfl, hhalted, hfaulted⟩

end Sys2Proof.Machine
end
